-- ==== Sys2Proof/Word.lean ====
section
/-! DEFINITION. The word of the core: 32 bits, numbered 31 down to 0 (spec R8), and the 8-bit command word (R71). -/

namespace Sys2Proof

/-- A word, 32 bits (R8). Samples, parameters, times and phases are words holding binary32 values (R6, R9). -/
abbrev Word := BitVec 32

/-- The command word on port `cmd`, 8 bits (R70, R71). -/
abbrev Byte := BitVec 8

end Sys2Proof
end

