-- ==== Sys2Proof/Syntax.lean ====
section
/-! DEFINITION. The commands of the core (spec R72, opcode_table.json): four rows, four constructors. -/

namespace Sys2Proof

/-- The commands of rule R72. No command has an operand field: every operand comes from the input ports (R71, R75).
ILLEGAL is the outcome of a word that is no command (R73, R205), not a command; `Machine.execIllegal` is its meaning. -/
inductive Instr where
  | nop      -- `0x00`, R201
  | prepare  -- `0x01`, R202
  | sample   -- `0x02`, R203
  | clrerr   -- `0x03`, R204
  deriving DecidableEq, Repr

end Sys2Proof
end

