-- ==== Sys2Proof/WellFormed.lean ====
section
/-! DEFINITION. Which command words are well formed: the two fields of format CMD8 and the two checks on them (spec R71 to R74). -/

namespace Sys2Proof

/-- The fields of the one format, CMD8 (R71): `RSV` is bits 7:3 and `OP` is bits 2:0. -/
structure CommandWord where
  rsv : BitVec 5
  op  : BitVec 3
  deriving DecidableEq, Repr

namespace CommandWord

/-- The fields of a command word (R71). -/
def ofByte (w : Byte) : CommandWord := { rsv := w.extractLsb 7 3, op := w.extractLsb 2 0 }

/-- The command word `{RSV, OP}` (R8, R71). -/
def toByte (c : CommandWord) : Byte := c.rsv ++ c.op

/-- "reserved, must be `00000`" (R71). -/
def reservedZero (c : CommandWord) : Bool := c.rsv == 0#5

/-- `OP` is one of the four assigned codes; 4 to 7 are reserved (R72). -/
def opAssigned (c : CommandWord) : Bool := decide (c.op.toNat < 4)

/-- A word of the opcode map; each of the other 252 words is ILLEGAL (R73, R74). -/
def wellFormed (c : CommandWord) : Bool := c.reservedZero && c.opAssigned

end CommandWord

/-- No command has a register, immediate or mode field (R71, R82), so as syntax every command is well formed. -/
def Instr.wellFormed : Instr → Bool
  | .nop     => true
  | .prepare => true
  | .sample  => true
  | .clrerr  => true

end Sys2Proof
end

