-- ==== Sys2Proof/Decode.lean ====
section
/-! DEFINITION. The decoder, total on all 256 command words and rejecting by name (spec R73, R74), and after it the encoder. -/

namespace Sys2Proof

/-- Why a word decodes as ILLEGAL (R73). -/
inductive DecodeReject where
  | reservedBits (rsv : BitVec 5)  -- `RSV` (bits 7:3) is not zero
  | reservedOp (op : BitVec 3)     -- `RSV` is zero and `OP` is 4 to 7
  deriving DecidableEq, Repr

/-- The decoder of rule R73: `RSV` is tested first, then `OP` selects. -/
def decode (cmd : Byte) : Except DecodeReject Instr :=
  let w := CommandWord.ofByte cmd
  if w.reservedZero then
    match w.op.toNat with
    | 0 => .ok .nop
    | 1 => .ok .prepare
    | 2 => .ok .sample
    | 3 => .ok .clrerr
    | _ => .error (.reservedOp w.op)
  else .error (.reservedBits w.rsv)

/-- The command the decoder reads from a row of `opcode_table.json`. A command is exactly one 8-bit word (R82):
a row of another length, or a number that does not fit one word, is no command (DESIGN CHOICE, safe, log entry 16). -/
def decodeTableWord (nbits w : Nat) : Option Instr :=
  if nbits = 8 ∧ w < 256 then
    match decode (BitVec.ofNat 8 w) with
    | .ok i    => some i
    | .error _ => none
  else none

/-- The operation code of each command (R72). -/
def opOf : Instr → BitVec 3
  | .nop     => 0b000#3
  | .prepare => 0b001#3
  | .sample  => 0b010#3
  | .clrerr  => 0b011#3

/-- The encoder: `RSV` zero and the command's `OP` (R71, R72). -/
def encode (i : Instr) : Byte := CommandWord.toByte { rsv := 0b00000#5, op := opOf i }

end Sys2Proof
end

