-- ==== Sys2Proof/Machine/Binary32.lean ====
section
/-! DEFINITION. The arithmetic primitives of the spec (R9 to R12): IEEE 754 binary32, round to nearest, ties to even,
subnormals kept, no flags, no traps, every NaN result the canonical one. Exact values are integers: a finite binary32
value is a whole number of UNITS of 2^-149, the smallest subnormal. (A large literal stands LEFT of a product: with it on the right,
the kernel may unfold the product one unit at a time.) -/

namespace Sys2Proof.Machine

/-! ### Fields and classes (R9) -/

/-- The sign, bit 31. -/
def signBit (w : Word) : Bool := w.getLsbD 31

/-- Bits 30:0: biased exponent and fraction read as one number. -/
def magBits (w : Word) : Nat := (w.extractLsb 30 0).toNat

/-- The biased exponent, bits 30:23. -/
def expField (w : Word) : Nat := (w.extractLsb 30 23).toNat

/-- The fraction, bits 22:0. -/
def fracField (w : Word) : Nat := (w.extractLsb 22 0).toNat

/-- Exponent 0xFF with a non-zero fraction (R9, R11). -/
def isNaN (w : Word) : Bool := expField w == 255 && fracField w != 0

/-- Exponent 0xFF with fraction zero (R9). -/
def isInf (w : Word) : Bool := expField w == 255 && fracField w == 0

/-- Neither infinite nor NaN (R11). -/
def isFinite (w : Word) : Bool := expField w != 255

/-- A zero of either sign. -/
def isZero (w : Word) : Bool := magBits w == 0

/-- The canonical quiet NaN (R6, R10). -/
def canonicalNaN : Word := 0x7FC00000#32

/-- A word from its sign and its bits 30:0. -/
def packWord (neg : Bool) (mag : Nat) : Word := BitVec.ofNat 32 ((if neg then 2 ^ 31 else 0) + mag)

/-- Bits 30:0 of an infinity (R9). -/
def infBits : Nat := 0x7F800000

/-- The infinity of the given sign. -/
def infinity (neg : Bool) : Word := packWord neg infBits

/-! ### Exact values -/

/-- The magnitude named by bits 30:0, in units of 2^-149 (R9). With exponent field `e` and fraction `f`: `f` when `e` is 0
(zero, subnormals), else `(2^23 + f) * 2^(e-1)`. An infinity's bits give 2^277, above every finite magnitude. -/
def magUnits (m : Nat) : Nat :=
  if m / 2 ^ 23 = 0 then m % 2 ^ 23 else (2 ^ 23 + m % 2 ^ 23) * 2 ^ (m / 2 ^ 23 - 1)

/-- The value of a word in units of 2^-149. -/
def units (w : Word) : Int :=
  if signBit w then -(magUnits (magBits w) : Int) else (magUnits (magBits w) : Int)

/-- The value of a finite word, for statements (no operation computes with it). -/
def value (w : Word) : ℚ := (units w : ℚ) / 2 ^ 149

/-! ### Rounding (R10: to nearest, ties to even) -/

/-- `n + r/step` rounded to an integer, to nearest, ties to even (`r < step`). -/
def roundHalfEven (n r step : Nat) : Nat :=
  if step < 2 * r ∨ (step = 2 * r ∧ n % 2 = 1) then n + 1 else n

/-- How many low bits a magnitude of `q` whole units drops: 0 up to 2^24 (zero, subnormals and the first normal binade have
the spacing of one unit), else as many as leave 24. -/
def dropBits (q : Nat) : Nat := q.log2 - 23

/-- Bits 30:0 of the binary32 magnitude nearest to `num/den` units, ties to even; an infinity from half an ulp above the
largest finite magnitude on. The significand `n` with its `sh` dropped bits has the bits `2^23 * sh + n`, both for a
subnormal and for a normal magnitude, and when `n` rounds up to 2^24. -/
def roundMag (num den : Nat) : Nat :=
  let sh := dropBits (num / den)
  let step := den * 2 ^ sh
  min (2 ^ 23 * sh + roundHalfEven (num / step) (num % step) step) infBits

/-- The binary32 value nearest to `±num/den` units. -/
def roundWord (neg : Bool) (num den : Nat) : Word := packWord neg (roundMag num den)

/-! ### Operations (R10). PRESUMED, unsafe if wrong, log entry 12: what IEEE 754 says and R10 does not list -/

/-- The value with its sign bit flipped. -/
def fNeg (a : Word) : Word := packWord (!signBit a) (magBits a)

/-- `f_add`. An exact zero sum is `+0.0`, but for the sum of two zeros with the sign bit set. -/
def fAdd (a b : Word) : Word :=
  if isNaN a || isNaN b then canonicalNaN
  else if isInf a then (if isInf b && signBit a != signBit b then canonicalNaN else a)
  else if isInf b then b
  else
    let sum := units a + units b
    if sum = 0 then packWord (signBit a && signBit b) 0
    else roundWord (decide (sum < 0)) sum.natAbs 1

/-- `f_sub`: `a - b` is `a + (-b)`. -/
def fSub (a b : Word) : Word := fAdd a (fNeg b)

/-- `f_mul`. `0 * ∞` is the canonical NaN. -/
def fMul (a b : Word) : Word :=
  let neg := signBit a != signBit b
  if isNaN a || isNaN b then canonicalNaN
  else if isInf a || isInf b then (if isZero a || isZero b then canonicalNaN else infinity neg)
  else roundWord neg ((units a).natAbs * (units b).natAbs) (2 ^ 149)

/-- `f_div`. `0/0` and `∞/∞` are the canonical NaN; a non-zero value divided by zero is an infinity (R225). -/
def fDiv (a b : Word) : Word :=
  let neg := signBit a != signBit b
  if isNaN a || isNaN b then canonicalNaN
  else if isInf a then (if isInf b then canonicalNaN else infinity neg)
  else if isInf b then packWord neg 0
  else if isZero b then (if isZero a then canonicalNaN else infinity neg)
  else roundWord neg (2 ^ 149 * (units a).natAbs) (units b).natAbs

/-! ### Comparisons (R11): false when an operand is a NaN; `-0.0` and `+0.0` compare equal -/

/-- Neither operand is a NaN. -/
def ordered (a b : Word) : Bool := !isNaN a && !isNaN b

/-- `f_lt`. -/
def fLt (a b : Word) : Bool := ordered a b && decide (units a < units b)

/-- `f_gt`. -/
def fGt (a b : Word) : Bool := ordered a b && decide (units b < units a)

/-- `f_ge`. -/
def fGe (a b : Word) : Bool := ordered a b && decide (units b ≤ units a)

/-- `f_min` (R11). -/
def fMin (a b : Word) : Word := if fLt a b then a else b

/-- `f_max` (R11). -/
def fMax (a b : Word) : Word := if fGt a b then a else b

/-! ### Conversions (R12) -/

/-- `toF(n)`, exact for `n ≤ 2^24`. -/
def toF (n : Nat) : Word := roundWord false (2 ^ 149 * n) 1

/-- `floorI(x)`, the integer `⌊x⌋` of a finite `x`; R12 gives none for an infinity or a NaN. -/
def floorI (x : Word) : Option Int := if isFinite x then some (units x / 2 ^ 149) else none

end Sys2Proof.Machine
end

