-- ==== Sys2Proof/Machine/Constants.lean ====
section
/-! DEFINITION. The fixed constants of the core as binary32 bit patterns (spec R8, R123, R140). -/

namespace Sys2Proof.Machine

/-- `+0.0`. -/
def zeroF : Word := 0x00000000#32
/-- `1.0`. -/
def oneF : Word := 0x3F800000#32
/-- `2.0`. -/
def twoF : Word := 0x40000000#32
/-- `TWO_PI`, the binary32 value nearest to 2π (R123). -/
def twoPi : Word := 0x40C90FDB#32
/-- `K`, the smoothing constant 0.001 (R140). -/
def smoothK : Word := 0x3A83126F#32
/-- `FL_MIN`, 0.001 s (R140). -/
def flMin : Word := 0x3A83126F#32
/-- `FL_MAX`, 0.005 s (R140). -/
def flMax : Word := 0x3BA3D70A#32
/-- `CH_MIN`, 0.005 s (R140). -/
def chMin : Word := 0x3BA3D70A#32
/-- `CH_MAX`, 0.03 s (R140). -/
def chMax : Word := 0x3CF5C28F#32
/-- 0.98, the upper bound of the documented feedback range (R8, R40, R78). -/
def feedbackMax : Word := 0x3F7AE148#32

end Sys2Proof.Machine
end

