-- ==== Sys2Proof/Config.lean ====
section
/-! DEFINITION. What the spec leaves to the implementation (R6, R124) and the free values (R36, R253). Every constant here is
opaque: it has no body, so a claim holds whatever the implementation chose. DESIGN CHOICE, safe, log entries 1, 2, 3 and 10. -/

namespace Sys2Proof.Machine

/-- The sine unit `lfo_sin` with its accuracy bound `SIN_TOL`, both OPEN (R124). The four properties are S1 to S4 of R124, and
nothing else is known of the function. -/
structure SineUnit where
  /-- `lfo_sin`, a total function from binary32 to binary32. -/
  fn : Word → Word
  /-- `SIN_TOL`. -/
  tol : ℚ
  /-- S1: for every finite `x` the result is in [-1.0, 1.0] and not NaN. -/
  range : ∀ x, isFinite x = true → isFinite (fn x) = true ∧ -1 ≤ value (fn x) ∧ value (fn x) ≤ 1
  /-- S2: each zero is its own sine. -/
  zero : fn zeroF = zeroF ∧ fn (fNeg zeroF) = fNeg zeroF
  /-- S3: for `x` NaN or infinite the result is the canonical NaN. -/
  nonFinite : ∀ x, isFinite x = false → fn x = canonicalNaN
  /-- S4: for `x` in [0, TWO_PI] the result is within `SIN_TOL` of the real sine of the value of `x`. -/
  accuracy : ∀ x, isFinite x = true → 0 ≤ value x → value x ≤ value twoPi →
    |((value (fn x) : ℚ) : ℝ) - Real.sin ((value x : ℚ) : ℝ)| ≤ ((tol : ℚ) : ℝ)

/-- The function of the witness below: zero on the finite words. -/
def flatSine (x : Word) : Word := if isFinite x then (if x = fNeg zeroF then fNeg zeroF else zeroF) else canonicalNaN

theorem value_zeroF : value zeroF = 0 := by
  have h : units zeroF = 0 := by decide
  simp [value, h]

theorem value_negZero : value (fNeg zeroF) = 0 := by
  have h : units (fNeg zeroF) = 0 := by decide
  simp [value, h]

theorem value_flatSine {x : Word} (hx : isFinite x = true) : value (flatSine x) = 0 := by
  unfold flatSine
  rw [if_pos hx]
  split
  · exact value_negZero
  · exact value_zeroF

theorem finite_flatSine {x : Word} (hx : isFinite x = true) : isFinite (flatSine x) = true := by
  unfold flatSine
  rw [if_pos hx]
  split <;> decide

/-- A witness that the properties S1 to S4 can be met together, which the opaque constant below needs to exist. The core's own
sine unit is `Config.hardware.sine`, and nothing says that it is this one. -/
def SineUnit.witness : SineUnit where
  fn := flatSine
  tol := 2
  range x hx := by rw [value_flatSine hx]; exact ⟨finite_flatSine hx, by norm_num, by norm_num⟩
  zero := by decide
  nonFinite x hx := by simp [flatSine, hx]
  accuracy x hx _ _ := by
    rw [value_flatSine hx]
    have h := Real.abs_sin_le_one ((value x : ℚ) : ℝ)
    simp only [Rat.cast_zero, zero_sub, abs_neg, Rat.cast_ofNat]
    linarith

/-- The implementation parameters of R6 that are OPEN. The field values written here only show that the type has a member. -/
structure Config where
  /-- `CAP_MAX`, words per channel buffer, `1 ≤ CAP_MAX ≤ 2^24` (R6). -/
  capMax : { n : Nat // 1 ≤ n ∧ n ≤ 2 ^ 24 } := ⟨131072, by decide⟩
  /-- `lfo_sin` (R124). -/
  sine : SineUnit := SineUnit.witness
  /-- `L_SAMPLE` in clock cycles; no rule depends on it (R6, R263). -/
  sampleLatency : Nat := 1
  /-- `L_PREPARE` in clock cycles, which may grow with the capacity; no rule depends on it (R6, R263). -/
  prepareLatency : Nat → Nat := fun _ => 1
  deriving Inhabited

/-- The parameters of the core at hand: any that R6 and R124 allow. No body. -/
opaque Config.hardware : Config

/-- FREE VALUE: the word that index `i` of a channel memory holds since its draw number `draw`, until it is written (R36, R253:
"A model takes every buffer word after reset as unknown (a draw)"). No body. -/
opaque Config.unspecifiedWord : (draw i : Nat) → Word

/-- `CAP_MAX` of the core at hand. -/
def Config.capMaxOf (c : Config) : Nat := c.capMax.val

end Sys2Proof.Machine
end

