-- ==== Sys2Proof/Machine/State.lean ====
section
/-! DEFINITION. The state of the core as plain data (spec R20), the reasons a step can stop, and the state after reset (R36). -/

namespace Sys2Proof.Machine

/-- The reason a step can fault. -/
inductive Fault where
  /-- Raised by `memRead` and `memWrite` when the index is not below `CAP`: R13 and R52 define them for `0 <= i < CAP` only.
  SAFE: R108 says that no command computes another index, so only a state that no run reaches gets here (log entry 9). -/
  | bufferIndex
  deriving DecidableEq, Repr

/-- The reasons a step can be refused. Nothing in this model refuses: every command has its meaning. -/
inductive Refusal where
  /-- Raised by an arm of `exec` whose instruction has no meaning yet; no arm is left so. SAFE. -/
  | notModelled (mnemonic : String)
  deriving DecidableEq, Repr

/-- The three errors (R220 to R223). `DSAT` is a diagnostic, not an error (R224). -/
inductive ErrorCause where
  | unprep  -- `ERR_UNPREP`, code 1
  | cmd     -- `ERR_CMD`, code 2
  | cfg     -- `ERR_CFG`, code 3
  deriving DecidableEq, Repr

/-- One channel memory, `BUF_L` or `BUF_R` (R33, R50). Indices below `zeroedTo` were zeroed by a PREPARE since the draw (R66);
`cells` lists the words that differ from that, index strictly rising; an unlisted word reads `+0.0` below `zeroedTo` and is
the free value `Config.unspecifiedWord draw i` from there on (R36, R51, R253). DESIGN CHOICE, safe, log entries 3
and 8. -/
structure Memory where
  draw     : Nat
  zeroedTo : Nat
  cells    : List (Nat × Word)
  deriving DecidableEq, Repr

/-- The levels on the input ports (R70). -/
structure Ports where
  rst           : Bool
  cmdValid      : Bool
  cmd           : Byte
  cfgSampleRate : Word
  cfgMaxDelay   : Word
  pMix          : Word
  pFeedback     : Word
  pDepth        : Word
  pRate         : Word
  pPhaseOffset  : Word
  pMode         : BitVec 1
  inL           : Word
  inR           : Word
  deriving DecidableEq, Repr

/-- The state. From `prep` to `bufR` it is the architectural state of R20; `ports` and `inputs` are the outside world (R35, R58,
R264); `faultRecord` is the record R237 asks a model to keep; `drawsUsed` is the model's own counter of free values. -/
structure State where
  /-- `PREP`: 1 when Prepared (R22). -/
  prep       : Bool
  /-- `SR` (R23). -/
  sr         : Word
  /-- `CAP` (R24). -/
  cap        : BitVec 25
  /-- `WH` (R25). -/
  wh         : BitVec 24
  /-- `PHASE` (R26). -/
  phase      : Word
  /-- `SMOOTH` (R27). -/
  smooth     : Word
  /-- `FB_L` (R28). -/
  fbL        : Word
  /-- `FB_R` (R28). -/
  fbR        : Word
  /-- `OUT_L` (R29). -/
  outL       : Word
  /-- `OUT_R` (R29). -/
  outR       : Word
  /-- `ERR_UNPREP`, sticky (R30). -/
  errUnprep  : Bool
  /-- `ERR_CMD`, sticky (R30). -/
  errCmd     : Bool
  /-- `ERR_CFG`, sticky (R30). -/
  errCfg     : Bool
  /-- `DSAT`, sticky (R30). -/
  dsat       : Bool
  /-- `BUF_L` (R33). -/
  bufL       : Memory
  /-- `BUF_R` (R33). -/
  bufR       : Memory
  /-- The levels on the input ports at the current instant (R58, R70). -/
  ports      : Ports
  /-- What the outside agents drive at the instants to come, the next one first (R59, R264). -/
  inputs     : List Ports
  /-- The model's record of errors, oldest first, which no step clears (R237). -/
  faultRecord : List ErrorCause
  /-- How many draws of unspecified buffer contents have been used (R253). -/
  drawsUsed  : Nat
  deriving DecidableEq, Repr

/-- A channel memory with nothing written since draw number `n`: every word unspecified (R36). -/
def Memory.unspecified (n : Nat) : Memory := { draw := n, zeroedTo := 0, cells := [] }

/-- Every input port at 0. The spec gives the ports no reset value (R83, section 95); DESIGN CHOICE, unsafe,
log entry 5. -/
def Ports.idle : Ports :=
  { rst := false, cmdValid := false, cmd := 0x00#8, cfgSampleRate := 0x00000000#32, cfgMaxDelay := 0x00000000#32,
    pMix := 0x00000000#32, pFeedback := 0x00000000#32, pDepth := 0x00000000#32, pRate := 0x00000000#32,
    pPhaseOffset := 0x00000000#32, pMode := 0#1, inL := 0x00000000#32, inR := 0x00000000#32 }

/-- The state after hardware reset (R36, R250). The last four fields are not the core's: no input has been given, no error
recorded, and the two memories hold the draws 0 and 1 (log entries 3, 4 and 5). -/
def State.reset : State :=
  { prep := false, sr := 0x00000000#32, cap := 0#25, wh := 0#24, phase := 0x00000000#32, smooth := 0x00000000#32,
    fbL := 0x00000000#32, fbR := 0x00000000#32, outL := 0x00000000#32, outR := 0x00000000#32,
    errUnprep := false, errCmd := false, errCfg := false, dsat := false,
    bufL := Memory.unspecified 0, bufR := Memory.unspecified 1,
    ports := Ports.idle, inputs := [], faultRecord := [], drawsUsed := 2 }

end Sys2Proof.Machine
end

