-- ==== Sys2Proof/Machine/Flags.lean ====
section
/-! DEFINITION. The sticky flags, their codes and the STATUS word (spec R30, R31, R220). -/

namespace Sys2Proof.Machine

/-- The code of an error: the index of its STATUS bit (R220). -/
def ErrorCause.code : ErrorCause → Nat
  | .unprep => 1
  | .cmd    => 2
  | .cfg    => 3

/-- The code of `DSAT` (R220). -/
def dsatCode : Nat := 4

/-- Set the sticky flag of an error and leave the others (R30, R228). -/
def State.setErrorFlag (e : ErrorCause) (s : State) : State :=
  match e with
  | .unprep => { s with errUnprep := true }
  | .cmd    => { s with errCmd := true }
  | .cfg    => { s with errCfg := true }

/-- The sticky `DSAT` after a SAMPLE whose two clamps answered `satL` and `satR` (R146, R224). -/
def dsatAfter (old satL satR : Bool) : Bool := old || satL || satR

/-- Clear the four flags (R204). -/
def State.clearFlags (s : State) : State :=
  { s with errUnprep := false, errCmd := false, errCfg := false, dsat := false }

/-- The STATUS word of R31: bit 0 `PREP`, 1 `ERR_UNPREP`, 2 `ERR_CMD`, 3 `ERR_CFG`, 4 `DSAT`, bits 7:5 zero. -/
def State.status (s : State) : BitVec 8 :=
  0b000#3 ++ BitVec.ofBool s.dsat ++ BitVec.ofBool s.errCfg ++ BitVec.ofBool s.errCmd ++ BitVec.ofBool s.errUnprep
    ++ BitVec.ofBool s.prep

end Sys2Proof.Machine
end

