-- ==== Sys2Proof/Machine/Operands.lean ====
section
/-! DEFINITION. The operands of the commands, sampled from the input ports at acceptance (spec R58, R75 to R79). -/

namespace Sys2Proof.Machine

/-- The two values of the `mode` input (R16, R76). -/
inductive Mode where
  | chorus
  | flanger
  deriving DecidableEq, Repr

/-- `p_mode`: 0 selects Chorus and 1 selects Flanger (R76). -/
def Mode.ofPort (p : BitVec 1) : Mode := if p = 1#1 then .flanger else .chorus

/-- The operands of PREPARE (R75, R77). -/
structure PrepareOperands where
  sampleRate : Word
  maxDelay   : Word
  deriving DecidableEq, Repr

/-- Sample the operands of PREPARE. -/
def PrepareOperands.ofPorts (p : Ports) : PrepareOperands :=
  { sampleRate := p.cfgSampleRate, maxDelay := p.cfgMaxDelay }

/-- The operands of SAMPLE (R75, R78, R79), each port on its own (R59). -/
structure SampleOperands where
  dryL     : Word
  dryR     : Word
  mix      : Word
  feedback : Word
  depth    : Word
  rate     : Word
  offset   : Word
  mode     : Mode
  deriving DecidableEq, Repr

/-- Sample the operands of SAMPLE: every 32-bit port is used as it is, with no check of range or class (R76). -/
def SampleOperands.ofPorts (p : Ports) : SampleOperands :=
  { dryL := p.inL, dryR := p.inR, mix := p.pMix, feedback := p.pFeedback, depth := p.pDepth, rate := p.pRate,
    offset := p.pPhaseOffset, mode := Mode.ofPort p.pMode }

end Sys2Proof.Machine
end

