-- ==== Sys2Proof/Machine/Ops.lean ====
section
/-! DEFINITION. The shared operations: the channel memories (spec R50 to R66), raising an error (R14, R227), hardware reset
(R250), taking the next input (R58, R264) and the output ports (R80). There is no trap entry and no return from one (R227,
R228): raising an error sets a sticky flag and ends the command. -/

namespace Sys2Proof.Machine

/-! ### The cells of a memory: a list of (index, word), index strictly rising -/

/-- The word listed at index `i`. -/
def cellsFind (i : Nat) : List (Nat × Word) → Option Word
  | [] => none
  | (j, w) :: rest => if i = j then some w else cellsFind i rest

/-- List the word `v` at index `i`, in order. -/
def cellsInsert (i : Nat) (v : Word) : List (Nat × Word) → List (Nat × Word)
  | [] => [(i, v)]
  | (j, w) :: rest =>
    if i < j then (i, v) :: (j, w) :: rest
    else if i = j then (i, v) :: rest
    else (j, w) :: cellsInsert i v rest

/-- Take index `i` off the list. -/
def cellsErase (i : Nat) : List (Nat × Word) → List (Nat × Word)
  | [] => []
  | (j, w) :: rest => if i = j then rest else (j, w) :: cellsErase i rest

/-- Every index of the list is above `lo` and the indices rise strictly. -/
def cellsRiseFrom : Option Nat → List (Nat × Word) → Bool
  | _, [] => true
  | lo, (j, _) :: rest => (match lo with | none => true | some k => decide (k < j)) && cellsRiseFrom (some j) rest

/-! ### A channel memory -/

/-- The canonical form: indices rise strictly, and no listed word equals the `+0.0` that its index reads when unlisted. -/
def Memory.wf (m : Memory) : Bool :=
  cellsRiseFrom none m.cells && m.cells.all (fun c => !(decide (c.1 < m.zeroedTo) && c.2 == zeroF))

/-- What an index that is not listed reads as (R36, R52, R66). -/
def Memory.unlisted (m : Memory) (i : Nat) : Word :=
  if i < m.zeroedTo then zeroF else Config.unspecifiedWord m.draw i

/-- The word at index `i`. -/
def Memory.read (m : Memory) (i : Nat) : Word :=
  match cellsFind i m.cells with
  | some w => w
  | none => m.unlisted i

/-- Store the word `v` at index `i`, keeping the canonical form. -/
def Memory.write (m : Memory) (i : Nat) (v : Word) : Memory :=
  { m with cells := if i < m.zeroedTo ∧ v = zeroF then cellsErase i m.cells else cellsInsert i v m.cells }

/-- Store `+0.0` at every index below `c` (R66). -/
def Memory.zeroBelow (m : Memory) (c : Nat) : Memory :=
  { m with zeroedTo := max m.zeroedTo c, cells := m.cells.filter (fun x => decide (c ≤ x.1)) }

/-- `MemRead(BUF_c, i)` for `0 <= i < CAP` (R13, R52); it has no side effect. Elsewhere a fault: DESIGN CHOICE, safe,
log entry 9. -/
def memRead (cap : Nat) (m : Memory) (i : Int) : Except Fault Word :=
  if 0 ≤ i ∧ i < (cap : Int) then .ok (m.read i.toNat) else .error .bufferIndex

/-- `MemWrite(BUF_c, i, v)` for `0 <= i < CAP` (R13, R52). -/
def memWrite (cap : Nat) (m : Memory) (i : Int) (v : Word) : Except Fault Memory :=
  if 0 ≤ i ∧ i < (cap : Int) then .ok (m.write i.toNat v) else .error .bufferIndex

/-! ### Errors, reset, inputs, outputs -/

/-- `raise E` (R14, R220): set the sticky flag of the error and nothing else; the record of R237 takes the error. -/
def raiseError (e : ErrorCause) (s : State) : State :=
  { s.setErrorFlag e with faultRecord := s.faultRecord ++ [e] }

/-- Hardware reset (R36, R250): every register and flag at its reset value and every buffer word unspecified, by two fresh
draws. Reset samples no port and changes none; no step clears the fault record (R237). DESIGN CHOICE, safe, log entries 3 and 4. -/
def hardReset (s : State) : State :=
  { State.reset with
    bufL := Memory.unspecified s.drawsUsed, bufR := Memory.unspecified (s.drawsUsed + 1), drawsUsed := s.drawsUsed + 2,
    ports := s.ports, inputs := s.inputs, faultRecord := s.faultRecord }

/-- The next instant (R58, R264): the ports take the levels the outside agents drive. When nothing more is given, no command is
offered and each other port keeps its level (R83). DESIGN CHOICE, safe, log entry 7. -/
def takeInputs (s : State) : State :=
  match s.inputs with
  | p :: rest => { s with ports := p, inputs := rest }
  | [] => { s with ports := { s.ports with cmdValid := false } }

/-- The levels on the output ports between two commands (R70, R80). -/
structure Outputs where
  cmdReady  : Bool
  outL      : Word
  outR      : Word
  status    : BitVec 8
  capacity  : BitVec 25
  writeHead : BitVec 24
  deriving DecidableEq, Repr

/-- The output ports (R31, R32, R80); `cmd_ready` is 0 while `rst` is 1 and 1 between two commands (R81). -/
def State.outputs (s : State) : Outputs :=
  { cmdReady := !s.ports.rst, outL := s.outL, outR := s.outR, status := s.status, capacity := s.cap, writeHead := s.wh }

end Sys2Proof.Machine
end

