-- ==== Sys2Proof/Machine/DelayMapper.lean ====
section
/-! DEFINITION. The delay-time mapper and smoothing filter: RANGE, MAP, SMOOTH, TO_SAMPLES, DCLAMP (spec section 42, R140 to R146). -/

namespace Sys2Proof.Machine

/-- RANGE (R141): the bounds `(lo, hi)` of the delay time in seconds. -/
def delayRange : Mode → Word × Word
  | .flanger => (flMin, flMax)
  | .chorus  => (chMin, chMax)

/-- MAP (R142): the target delay time in seconds of the LFO value `v`. -/
def mapDelay (range : Word × Word) (depth v : Word) : Word :=
  let s := fMul v depth
  let a := fAdd s oneF
  let b := fSub range.2 range.1
  let c := fMul b a
  let e := fDiv c twoF
  fAdd range.1 e

/-- SMOOTH (R144): one step of the smoother, for the left channel alone (R145). -/
def smoothStep (smooth target : Word) : Word := fSub smooth (fMul smoothK (fSub smooth target))

/-- DCLAMP (R146): the delay in samples kept to [0, CAP - 1], and whether it was clamped. -/
def dclamp (cap : Nat) (x : Word) : Word × Bool :=
  let top := toF (cap - 1)
  if isNaN x || fLt x zeroF then (zeroF, true)
  else if fGt x top then (top, true)
  else (x, false)

/-- TO_SAMPLES (R146): seconds to samples, clamped. -/
def toSamples (cap : Nat) (seconds sr : Word) : Word × Bool := dclamp cap (fMul seconds sr)

end Sys2Proof.Machine
end

