-- ==== Sys2Proof/Machine/DelayBuffer.lean ====
section
/-! DEFINITION. The circular delay buffer: CAPCALC, BUF_WRITE, READPOS, HEAD_ADVANCE (spec section 40, R100 to R105). -/

namespace Sys2Proof.Machine

/-- CAPCALC (R100): the capacity of a PREPARE, or none when the configuration is not valid. -/
def capCalc (capMax : Nat) (sr md : Word) : Option Nat :=
  let prod := fMul sr md
  if isFinite sr && fGt sr zeroF && isFinite md && fGt md zeroF && isFinite prod && fGe prod oneF then
    match floorI prod with
    | some n => if n ≤ (capMax : Int) then some n.toNat else none
    | none => none
  else none

/-- BUF_WRITE (R101) of one channel: the write value at the write head. -/
def bufWrite (cap : Nat) (m : Memory) (wh : Nat) (wv : Word) : Except Fault Memory := memWrite cap m (wh : Int) wv

/-- READPOS (R102): the read position of one channel, with the second wrap. -/
def readPos (cap wh : Nat) (d : Word) : Word :=
  let p := fSub (toF wh) d
  let p := if fLt p zeroF then fAdd p (toF cap) else p
  if fGe p (toF cap) then fSub p (toF cap) else p

/-- HEAD_ADVANCE (R105). -/
def headAdvance (cap : BitVec 25) (wh : BitVec 24) : BitVec 24 :=
  if wh.toNat + 1 = cap.toNat then 0#24 else BitVec.ofNat 24 (wh.toNat + 1)

end Sys2Proof.Machine
end

