-- ==== Sys2Proof/Machine/Interpolator.lean ====
section
/-! DEFINITION. The fractional-sample interpolator: SPLIT and LERP (spec section 43, R160 to R164). It is linear only (R163). -/

namespace Sys2Proof.Machine

/-- SPLIT (R160): the two indices and the fraction of a read position; none where R12 gives the position no floor. -/
def split (cap : Nat) (p : Word) : Option (Int × Int × Word) :=
  match floorI p with
  | some i0 => some (i0, if i0 + 1 = (cap : Int) then 0 else i0 + 1, fSub p (toF i0.toNat))
  | none => none

/-- The output clamp of R161, between the two words read. -/
def bracket (r x0 x1 : Word) : Word :=
  if isNaN r || isNaN x0 || isNaN x1 then r
  else
    let lo := fMin x0 x1
    let hi := fMax x0 x1
    let r := if fLt r lo then lo else r
    if fGt r hi then hi else r

/-- LERP (R161) on the two words read. -/
def lerp (x0 x1 frac : Word) : Word :=
  let w0 := fSub oneF frac
  bracket (fAdd (fMul w0 x0) (fMul frac x1)) x0 x1

/-- The delayed sample of one channel at read position `p`: SPLIT, the two reads, LERP (R160, R161). -/
def readDelayed (cap : Nat) (m : Memory) (p : Word) : Except Fault Word :=
  match split cap p with
  | none => .error .bufferIndex
  | some (i0, i1, frac) =>
    match memRead cap m i0, memRead cap m i1 with
    | .ok x0, .ok x1 => .ok (lerp x0 x1 frac)
    | .error f, _ => .error f
    | .ok _, .error f => .error f

end Sys2Proof.Machine
end

