-- ==== Sys2Proof/Machine/FeedbackMix.lean ====
section
/-! DEFINITION. The feedback mixer and dry/wet crossfader: FB_SUM, FB_UPDATE, XFADE (spec section 44, R180 to R182), and one
channel's lane through steps 4 to 8 of SAMPLE (R186, R203). -/

namespace Sys2Proof.Machine

/-- FB_SUM (R180): the write value, not saturated. -/
def fbSum (dry fb : Word) : Word := fAdd dry fb

/-- FB_UPDATE (R181). -/
def fbUpdate (y gain : Word) : Word := fMul y gain

/-- XFADE (R182). -/
def xfade (dry y mix : Word) : Word := fAdd (fMul dry (fSub oneF mix)) (fMul y mix)

/-- What one lane writes in a SAMPLE: its memory, feedback register and output register. -/
structure LaneResult where
  buf : Memory
  fb  : Word
  out : Word
  deriving DecidableEq, Repr

/-- Steps 4 to 8 of SAMPLE for one channel (R203), whose delay in samples is `d`: write at the write head, then read behind it
(R61), then feedback and crossfade. -/
def runLane (cap wh : Nat) (m : Memory) (dry fb d gain mix : Word) : Except Fault LaneResult :=
  match bufWrite cap m wh (fbSum dry fb) with
  | .error f => .error f
  | .ok m' =>
    match readDelayed cap m' (readPos cap wh d) with
    | .error f => .error f
    | .ok y => .ok { buf := m', fb := fbUpdate y gain, out := xfade dry y mix }

end Sys2Proof.Machine
end

