-- ==== Sys2Proof/Machine/Lfo.lean ====
section
/-! DEFINITION. The LFO phase accumulator: PHASE_R, LFO_VALUE, LFO_ADVANCE (spec section 41, R121 to R125). -/

namespace Sys2Proof.Machine

/-- The wrap of R121 and R122: one subtraction of 1.0 when the phase reaches 1.0. -/
def wrapPhase (p : Word) : Word := if fGe p oneF then fSub p oneF else p

/-- LFO_ADVANCE (R121). -/
def lfoAdvance (phase rate sr : Word) : Word := wrapPhase (fAdd phase (fDiv rate sr))

/-- PHASE_R (R122): the right channel's phase. -/
def phaseRight (phase offset : Word) : Word := wrapPhase (fAdd phase offset)

/-- LFO_VALUE (R125), for the sine unit at hand. -/
def lfoValue (sine : Word → Word) (phase : Word) : Word := sine (fMul twoPi phase)

end Sys2Proof.Machine
end

