-- ==== Sys2Proof/Machine/Commands.lean ====
section
/-! DEFINITION. The meanings of the four commands and of ILLEGAL (spec section 45, R201 to R205). The open parameters are
arguments of `prepareOn` and `sampleOn` (R6), which `execPrepare` and `execSample` take from `Config.hardware`. -/

namespace Sys2Proof.Machine

/-- NOP (R201): nothing. -/
def execNop (s : State) : Host.Outcome State Fault Refusal := .next s

/-- What every PREPARE writes, valid or not, but for `SR`, `CAP`, `PREP` and the buffers (R202). -/
def clearDatapath (s : State) : State :=
  { s with wh := 0#24, phase := zeroF, smooth := zeroF, fbL := zeroF, fbR := zeroF, outL := zeroF, outR := zeroF }

/-- A valid PREPARE with capacity `c` (R37, R202). The words from `c` on stay as they are, where R51 calls those from the capacity on
unspecified: DEDUCED, unsafe, log entry 17. -/
def prepareValid (c : Nat) (sr : Word) (s : State) : State :=
  { clearDatapath s with
    prep := true, sr := sr, cap := BitVec.ofNat 25 c, bufL := s.bufL.zeroBelow c, bufR := s.bufR.zeroBelow c }

/-- The state an invalid PREPARE leaves, before it raises ERR_CFG (R38, R202): Unprepared, no buffer word written (R66).
DEDUCED, unsafe, log entry 6. -/
def prepareInvalid (s : State) : State := { clearDatapath s with prep := false, sr := zeroF, cap := 0#25 }

/-- PREPARE (R202) for a core with the given `CAP_MAX`. -/
def prepareOn (capMax : Nat) (s : State) : Host.Outcome State Fault Refusal :=
  let o := PrepareOperands.ofPorts s.ports
  match capCalc capMax o.sampleRate o.maxDelay with
  | some c => .next (prepareValid c o.sampleRate s)
  | none => .next (raiseError .cfg (prepareInvalid s))

/-- PREPARE (R202). -/
def execPrepare (s : State) : Host.Outcome State Fault Refusal := prepareOn Config.hardware.capMaxOf s

/-- Steps 2 to 9 of SAMPLE (R203), from the two LFO values of step 1. -/
def sampleFrom (o : SampleOperands) (vL vR : Word) (s : State) : Host.Outcome State Fault Refusal :=
  let range := delayRange o.mode
  let smooth := smoothStep s.smooth (mapDelay range o.depth vL)
  let left := toSamples s.cap.toNat smooth s.sr
  let right := toSamples s.cap.toNat (mapDelay range o.depth vR) s.sr
  match runLane s.cap.toNat s.wh.toNat s.bufL o.dryL s.fbL left.1 o.feedback o.mix,
        runLane s.cap.toNat s.wh.toNat s.bufR o.dryR s.fbR right.1 o.feedback o.mix with
  | .ok l, .ok r =>
    .next { s with
      smooth := smooth, dsat := dsatAfter s.dsat left.2 right.2,
      bufL := l.buf, bufR := r.buf, fbL := l.fb, fbR := r.fb, outL := l.out, outR := r.out,
      wh := headAdvance s.cap s.wh, phase := lfoAdvance s.phase o.rate s.sr }
  | .error f, _ => .fault f
  | .ok _, .error f => .fault f

/-- SAMPLE (R203) for a core with the given sine: ERR_UNPREP while Unprepared (R221), else one stereo frame. -/
def sampleOn (sine : Word → Word) (s : State) : Host.Outcome State Fault Refusal :=
  if s.prep then
    let o := SampleOperands.ofPorts s.ports
    sampleFrom o (lfoValue sine s.phase) (lfoValue sine (phaseRight s.phase o.offset)) s
  else .next (raiseError .unprep s)

/-- SAMPLE (R203). -/
def execSample (s : State) : Host.Outcome State Fault Refusal := sampleOn Config.hardware.sine.fn s

/-- CLRERR (R204): the four flags cleared; the fault record is not a flag and stays (R237). -/
def execClrerr (s : State) : Host.Outcome State Fault Refusal := .next s.clearFlags

/-- ILLEGAL (R205), the outcome of a word that is no command: raise ERR_CMD and nothing else. -/
def execIllegal (s : State) : Host.Outcome State Fault Refusal := .next (raiseError .cmd s)

end Sys2Proof.Machine
end

