-- ==== Sys2Proof/Machine/Sequencer.lean ====
section
/-! DEFINITION. The command unit (spec R81, R200, R226, R250): what one instant does with the levels on the input ports. -/

namespace Sys2Proof.Machine

/-- An accepted command word is decoded, then executed as one atomic step (R73, R200). -/
def acceptCommand (s : State) : Host.Outcome State Fault Refusal :=
  match decode s.ports.cmd with
  | .ok i => exec i s
  | .error _ => execIllegal s

/-- One instant: `rst` overrides everything (R226), a command is accepted when `cmd_valid` and `cmd_ready` are both 1 (R81), and
otherwise the core is idle and holds its state (R236). DEDUCED, log entries 7 and 13. -/
def instant (s : State) : Host.Outcome State Fault Refusal :=
  if s.ports.rst then .next (hardReset s)
  else if s.ports.cmdValid && s.outputs.cmdReady then acceptCommand s
  else .next s

end Sys2Proof.Machine
end

