-- ==== Sys2Proof/Machine/Step.lean ====
section
/-! DEFINITION. One step: the ports take the next levels (spec R58), then the core acts on them (R200). -/

namespace Sys2Proof.Machine

/-- One step of the machine. -/
def step (s : State) : Host.Outcome State Fault Refusal := instant (takeInputs s)

/-- The state in which the next instant offers the command word `w` on `cmd`, every data port keeping its level. Commands arrive
on the port and are stored nowhere (R64), so this is where a step takes its command from; a row has 8 bits (R82; log entries 5, 16). -/
def State.withFetchWord (s : State) (_nbits w : Nat) : State :=
  { s with inputs := { s.ports with rst := false, cmdValid := true, cmd := BitVec.ofNat 8 w } :: s.inputs }

end Sys2Proof.Machine
end

