-- ==== Sys2Proof/Safety.lean ====
section
/-! DEFINITION. The terms claims are stated in: ranges and magnitudes of binary32 values, correct rounding (spec R10), a valid
configuration (R100), one lane of a SAMPLE (R203), the invariants of R39, R40 and R52, and what a clean run is (R237). -/

namespace Sys2Proof.Machine

/-! ### Values -/

/-- `lo ≤ x ≤ hi` in the order of R11; no operand is a NaN. -/
def between (lo x hi : Word) : Bool := fGe x lo && fGe hi x

/-- `0.0 ≤ x < 1.0` in the order of R11. -/
def inUnit (x : Word) : Bool := fGe x zeroF && fLt x oneF

/-- The magnitude of `x` is at most `b`; neither is a NaN. -/
def withinMag (b x : Word) : Bool := between (fNeg b) x b

/-- A NaN is the canonical one (R10). -/
def nanCanonical (w : Word) : Bool := !isNaN w || w == canonicalNaN

/-- The word is a finite binary32 value nearest to `x`, and where another value is equally near, its last bit is 0 (R10: round
to nearest, ties to even). -/
def IsNearestEven (x : ℚ) (w : Word) : Prop :=
  isFinite w = true ∧ ∀ y, isFinite y = true →
    |value w - x| ≤ |value y - x| ∧ (|value w - x| = |value y - x| → value y ≠ value w → w.getLsbD 0 = false)

/-- The word is the binary32 rounding of `x`: nearest even below half an ulp past the largest finite value, from there on an
infinity of the sign of `x`. -/
def RoundsTo (x : ℚ) (w : Word) : Prop :=
  if |x| < 2 ^ 128 - 2 ^ 103 then IsNearestEven x w else w = infinity (decide (x < 0))

/-! ### Configurations and parameters -/

/-- The configuration is valid and gives the capacity `c` (R100). -/
def ConfigValid (capMax : Nat) (sr md : Word) (c : Nat) : Prop :=
  isFinite sr = true ∧ fGt sr zeroF = true ∧ isFinite md = true ∧ fGt md zeroF = true ∧
    isFinite (fMul sr md) = true ∧ fGe (fMul sr md) oneF = true ∧ floorI (fMul sr md) = some (c : Int) ∧ c ≤ capMax

/-- The parameter ports hold values of the ranges that R40 asks for, of every parameter but the mix (R78); 0.1 and 20 are
`0x3DCCCCCD` and `0x41A00000`. -/
def Ports.inRange (p : Ports) : Bool :=
  between zeroF p.pFeedback feedbackMax && between zeroF p.pDepth oneF &&
    between 0x3DCCCCCD#32 p.pRate 0x41A00000#32 && between zeroF p.pPhaseOffset oneF

/-- The two delays in samples of a SAMPLE before they are clamped, left and right, by steps 1 to 3 of R203 on the port levels `p`. -/
def State.unclampedDelays (s : State) (p : Ports) : Word × Word :=
  let map := mapDelay (delayRange (Mode.ofPort p.pMode)) p.pDepth
  let vL := lfoValue Config.hardware.sine.fn s.phase
  let vR := lfoValue Config.hardware.sine.fn (phaseRight s.phase p.pPhaseOffset)
  (fMul (smoothStep s.smooth (map vL)) s.sr, fMul (map vR) s.sr)

/-- The delay is NaN, below zero or above `CAP - 1`: what R224 calls the cause of `DSAT`. -/
def outsideRing (cap : Nat) (x : Word) : Prop := isNaN x = true ∨ fLt x zeroF = true ∨ fGt x (toF (cap - 1)) = true

/-! ### One lane of a SAMPLE -/

/-- Steps 4 to 8 of R203 for one channel, as the rule writes them: from memory `m`, feedback `fb` and delay `d` to memory `m'`,
feedback `fb'` and output `out`, with both indices read in use. -/
def LaneFrame (cap wh : Nat) (m : Memory) (dry fb d gain mix : Word) (m' : Memory) (fb' out : Word) : Prop :=
  ∃ p0 p1 p frac x0 x1 r r' y : Word, ∃ i0 i1 : Nat,
    (∀ i, m'.read i = if i = wh then fAdd dry fb else m.read i) ∧
    p0 = fSub (toF wh) d ∧
    p1 = (if fLt p0 zeroF then fAdd p0 (toF cap) else p0) ∧
    p = (if fGe p1 (toF cap) then fSub p1 (toF cap) else p1) ∧
    floorI p = some (i0 : Int) ∧ i0 < cap ∧ i1 = (if i0 + 1 = cap then 0 else i0 + 1) ∧ i1 < cap ∧
    frac = fSub p (toF i0) ∧ x0 = m'.read i0 ∧ x1 = m'.read i1 ∧
    r = fAdd (fMul (fSub oneF frac) x0) (fMul frac x1) ∧
    r' = (if fLt r (fMin x0 x1) then fMin x0 x1 else r) ∧
    y = (if isNaN r || isNaN x0 || isNaN x1 then r else if fGt r' (fMax x0 x1) then fMax x0 x1 else r') ∧
    fb' = fMul y gain ∧
    out = fAdd (fMul dry (fSub oneF mix)) (fMul y mix)

/-! ### Invariants -/

/-- The memory is in canonical form, every listed word has been zeroed by a PREPARE since the draw, and so has every index below
`cap`: no word in use is unspecified (R36, R51, R66). -/
def Memory.ring (m : Memory) (cap : Nat) : Bool :=
  m.wf && decide (cap ≤ m.zeroedTo) && m.cells.all (fun c => decide (c.1 < m.zeroedTo))

/-- The invariant of R39 for a core with the given `CAP_MAX`, and that both rings hold only specified words. -/
def State.Inv (capMax : Nat) (s : State) : Prop :=
  (s.prep = true → isFinite s.sr = true ∧ fGt s.sr zeroF = true ∧
    1 ≤ s.cap.toNat ∧ s.cap.toNat ≤ capMax ∧ s.wh.toNat < s.cap.toNat) ∧
  (s.prep = false → s.cap = 0#25 ∧ s.wh = 0#24) ∧
  s.bufL.ring s.cap.toNat = true ∧ s.bufR.ring s.cap.toNat = true

/-- Every listed word of the memory is canonical if it is a NaN (R52). -/
def Memory.nanCanonical (m : Memory) : Bool := m.cells.all (fun c => Machine.nanCanonical c.2)

/-- No register and no written buffer word holds a NaN other than the canonical one (R10, R52). -/
def State.nanCanonical (s : State) : Bool :=
  Machine.nanCanonical s.sr && Machine.nanCanonical s.phase && Machine.nanCanonical s.smooth &&
    Machine.nanCanonical s.fbL && Machine.nanCanonical s.fbR && Machine.nanCanonical s.outL &&
    Machine.nanCanonical s.outR && s.bufL.nanCanonical && s.bufR.nanCanonical

/-- The value invariants of R40 with a bound `b` on the words in use: phase in [0, 1), smoother in [0, `CH_MAX`], every word in use
at most `b` and every feedback register at most `f_mul(0.98, b)` in magnitude. -/
def State.Bounded (b : Word) (s : State) : Prop :=
  inUnit s.phase = true ∧ between zeroF s.smooth chMax = true ∧
  withinMag (fMul feedbackMax b) s.fbL = true ∧ withinMag (fMul feedbackMax b) s.fbR = true ∧
  (∀ i, i < s.cap.toNat → withinMag b (s.bufL.read i) = true) ∧
  (∀ i, i < s.cap.toNat → withinMag b (s.bufR.read i) = true)

/-! ### Safe runs -/

/-- No error has been recorded: the host kept its side (R237). -/
abbrev State.clean (s : State) : Prop := s.faultRecord = []

/-- The instant accepts the command word `w` (R81): no reset, and a command offered. -/
def Ports.accepts (p : Ports) (w : Byte) : Bool := !p.rst && p.cmdValid && p.cmd == w

/-- The levels that the next step acts on (R58). -/
def State.nextPorts (s : State) : Ports := (takeInputs s).ports

end Sys2Proof.Machine
end

