-- ==== Sys2Proof/Certificates/Slice0/Obligations.lean ====
section
/-! DEFINITION. The statements for the provers. Each docstring names the rule of the spec that it formalises. -/

open Sys2Proof Sys2Proof.Machine

/-! ### Encoding -/

/-- R72, R73: the opcode map, and every other word rejected by the field that makes it ILLEGAL. -/
def Obligations.CommandWordsDecodeByTheOpcodeMap : Prop :=
  decode 0x00#8 = .ok .nop ∧ decode 0x01#8 = .ok .prepare ∧ decode 0x02#8 = .ok .sample ∧ decode 0x03#8 = .ok .clrerr ∧
  ∀ w : Byte,
    (w.extractLsb 7 3 ≠ 0#5 → decode w = .error (.reservedBits (w.extractLsb 7 3))) ∧
    (w.extractLsb 7 3 = 0#5 → 4 ≤ (w.extractLsb 2 0).toNat → decode w = .error (.reservedOp (w.extractLsb 2 0)))

/-- R71, R72: the decoder undoes the encoder, and a word that decodes to a command is that command's word. -/
def Obligations.DecodeAndEncodeAgree : Prop :=
  (∀ i : Instr, decode (encode i) = .ok i) ∧ ∀ (w : Byte) (i : Instr), decode w = .ok i → encode i = w

/-- R72, R73: the rows of the opcode table, and no command in a word of the reserved space. That a row of another length reads no
command is the model's choice (log entry 16). -/
def Obligations.TableWordsReadTheirCommands : Prop :=
  decodeTableWord 8 0x00 = some .nop ∧ decodeTableWord 8 0x01 = some .prepare ∧ decodeTableWord 8 0x02 = some .sample ∧
  decodeTableWord 8 0x03 = some .clrerr ∧ decodeTableWord 8 0x0A = none ∧ decodeTableWord 16 0x02 = none

/-! ### A step -/

/-- R81, R200: an instant at which a command is accepted runs the decoded command on the ports of that instant. -/
def Obligations.StepRunsTheDecodedCommand : Prop :=
  ∀ (s : State) (p : Ports) (rest : List Ports) (i : Instr),
    s.inputs = p :: rest → p.rst = false → p.cmdValid = true → decode p.cmd = .ok i →
      step s = exec i { s with ports := p, inputs := rest }

/-- R205, R222: an accepted word of the reserved space sets `ERR_CMD` and changes nothing else of the core. The model's fault
record, kept as R237 asks, takes the error at its end (the model's choice of form, log entry 4). -/
def Obligations.IllegalWordSetsErrCmdOnly : Prop :=
  ∀ (s : State) (p : Ports) (rest : List Ports),
    s.inputs = p :: rest → p.rst = false → p.cmdValid = true → 4 ≤ p.cmd.toNat →
      step s = .next { s with ports := p, inputs := rest, errCmd := true, faultRecord := s.faultRecord ++ [.cmd] }

/-- R226, R250 (state of R36): while `rst` is 1, driven anew or held with no input given, no command is accepted whatever the ports
offer, and the state is the reset state. The model's choices: the registers and outputs read so already while `rst` is 1, where R250
speaks of when it returns to 0 (log entry 7); both memories hold fresh draws (log entry 3); and the fault record (R237) stays (log
entry 4). -/
def Obligations.ResetOverridesEveryCommand : Prop :=
  ∀ s : State, s.nextPorts.rst = true →
    ∃ t, step s = .next t ∧ t.prep = false ∧ t.sr = 0x00000000#32 ∧ t.cap = 0#25 ∧ t.wh = 0#24 ∧
      t.phase = 0x00000000#32 ∧ t.smooth = 0x00000000#32 ∧ t.fbL = 0x00000000#32 ∧ t.fbR = 0x00000000#32 ∧
      t.outL = 0x00000000#32 ∧ t.outR = 0x00000000#32 ∧ t.errUnprep = false ∧ t.errCmd = false ∧ t.errCfg = false ∧
      t.dsat = false ∧ t.status = 0x00#8 ∧ t.outputs.cmdReady = false ∧
      (∀ i, t.bufL.read i = Config.unspecifiedWord s.drawsUsed i) ∧
      (∀ i, t.bufR.read i = Config.unspecifiedWord (s.drawsUsed + 1) i) ∧
      t.ports = s.nextPorts ∧ t.inputs = s.inputs.tail ∧ t.faultRecord = s.faultRecord

/-- R236: an instant with neither a reset nor a command leaves every state of the core as it is; so does one with no input given. -/
def Obligations.IdleInstantHoldsTheState : Prop :=
  (∀ (s : State) (p : Ports) (rest : List Ports), s.inputs = p :: rest → p.rst = false → p.cmdValid = false →
    step s = .next { s with ports := p, inputs := rest }) ∧
  ∀ s : State, s.inputs = [] → s.ports.rst = false → step s = .next { s with ports := { s.ports with cmdValid := false } }

/-! ### Reset -/

/-- R36, R250: every register and flag after reset, the outputs they drive, and every buffer word unspecified. -/
def Obligations.ResetStateHasTheSpecifiedValues : Prop :=
  State.reset.prep = false ∧ State.reset.sr = 0x00000000#32 ∧ State.reset.cap = 0#25 ∧ State.reset.wh = 0#24 ∧
  State.reset.phase = 0x00000000#32 ∧ State.reset.smooth = 0x00000000#32 ∧
  State.reset.fbL = 0x00000000#32 ∧ State.reset.fbR = 0x00000000#32 ∧
  State.reset.outL = 0x00000000#32 ∧ State.reset.outR = 0x00000000#32 ∧
  State.reset.errUnprep = false ∧ State.reset.errCmd = false ∧ State.reset.errCfg = false ∧ State.reset.dsat = false ∧
  State.reset.outputs = { cmdReady := true, outL := 0#32, outR := 0#32, status := 0x00#8, capacity := 0#25, writeHead := 0#24 } ∧
  ∃ dL dR, dL ≠ dR ∧ ∀ i, State.reset.bufL.read i = Config.unspecifiedWord dL i ∧
    State.reset.bufR.read i = Config.unspecifiedWord dR i

/-- R39: the reset state meets the invariant, whatever `CAP_MAX` is. -/
def Obligations.ResetMeetsThePreparedInvariant : Prop := ∀ capMax, State.reset.Inv capMax

/-- R39: every step keeps the invariant, from every state that meets it; and `CAP_MAX` is at most 2^24. -/
def Obligations.EveryStepKeepsThePreparedInvariant : Prop :=
  Config.hardware.capMaxOf ≤ 2 ^ 24 ∧
  ∀ s t : State, s.Inv Config.hardware.capMaxOf → step s = .next t → t.Inv Config.hardware.capMaxOf

/-- R200 ("Every command completes") with R108: from every state that meets the invariant, whatever the ports hold, a step answers
a next state: no buffer index is ever out of the ring, and nothing is refused. -/
def Obligations.EveryStepCompletesInsideTheRing : Prop :=
  ∀ s : State, s.Inv Config.hardware.capMaxOf → ∃ t, step s = .next t

/-- R10, R52: every step keeps every NaN canonical, in the registers and in the written buffer words. -/
def Obligations.EveryStepKeepsNaNsCanonical : Prop :=
  State.reset.nanCanonical = true ∧ ∀ s t : State, s.nanCanonical = true → step s = .next t → t.nanCanonical = true

/-! ### The commands -/

/-- R201. -/
def Obligations.NopChangesNothing : Prop := ∀ s : State, exec .nop s = .next s

/-- R204: CLRERR clears the four flags and leaves everything else, in both engine states. -/
def Obligations.ClrerrClearsTheFourFlagsOnly : Prop :=
  ∀ s : State,
    exec .clrerr s = .next { s with errUnprep := false, errCmd := false, errCfg := false, dsat := false } ∧
    State.status { s with errUnprep := false, errCmd := false, errCfg := false, dsat := false } =
      (if s.prep then 0x01#8 else 0x00#8)

/-- R37, R66, R202: PREPARE with a valid configuration of capacity `c` answers the state of R37, in both engine states.
That the words from `c` on are unchanged is what R37 and R202 say; R51 calls them unspecified (the model's choice, log entry 17). -/
def Obligations.PrepareWithValidConfigurationResetsAndSizes : Prop :=
  ∀ (s : State) (c : Nat),
    ConfigValid Config.hardware.capMaxOf s.ports.cfgSampleRate s.ports.cfgMaxDelay c →
      ∃ t, exec .prepare s = .next t ∧
        t.prep = true ∧ t.sr = s.ports.cfgSampleRate ∧ t.cap.toNat = c ∧ t.wh = 0#24 ∧
        t.phase = zeroF ∧ t.smooth = zeroF ∧ t.fbL = zeroF ∧ t.fbR = zeroF ∧ t.outL = zeroF ∧ t.outR = zeroF ∧
        (∀ i, t.bufL.read i = if i < c then 0x00000000#32 else s.bufL.read i) ∧
        (∀ i, t.bufR.read i = if i < c then 0x00000000#32 else s.bufR.read i) ∧
        t.errUnprep = s.errUnprep ∧ t.errCmd = s.errCmd ∧ t.errCfg = s.errCfg ∧ t.dsat = s.dsat ∧
        t.ports = s.ports ∧ t.inputs = s.inputs ∧ t.faultRecord = s.faultRecord ∧ t.drawsUsed = s.drawsUsed

/-- R66, R202, R223: PREPARE with a configuration that no capacity is valid for leaves the core Unprepared with its registers at
zero, writes no buffer word, sets `ERR_CFG` and leaves the other flags. The fault record (R237) takes the error at its end (log
entry 4). That the buffer words stay as they are, where R38 calls them unspecified, is the model's reading (log entry 6). -/
def Obligations.PrepareWithInvalidConfigurationLeavesUnprepared : Prop :=
  ∀ s : State,
    (∀ c, ¬ConfigValid Config.hardware.capMaxOf s.ports.cfgSampleRate s.ports.cfgMaxDelay c) →
      exec .prepare s = .next { s with
        prep := false, sr := zeroF, cap := 0#25, wh := 0#24, phase := zeroF, smooth := zeroF, fbL := zeroF, fbR := zeroF,
        outL := zeroF, outR := zeroF, errCfg := true, faultRecord := s.faultRecord ++ [.cfg] }

/-- R202, R255: two PREPAREs with the same valid operands leave the same state as one. -/
def Obligations.PrepareIsIdempotent : Prop :=
  ∀ s t : State, exec .prepare s = .next t → t.prep = true → exec .prepare t = .next t

/-- R221: a SAMPLE while Unprepared sets `ERR_UNPREP` and changes nothing else of the core; the fault record (R237) takes it
at its end (the model's choice of form, log entry 4). -/
def Obligations.SampleWhileUnpreparedSetsErrUnprepOnly : Prop :=
  ∀ s : State, s.prep = false →
    exec .sample s = .next { s with errUnprep := true, faultRecord := s.faultRecord ++ [.unprep] }

/-- R203, step by step as the rule writes it. While Unprepared a SAMPLE raises `ERR_UNPREP`, which the fault
record takes too (R237; log entry 4). While Prepared with a write head inside
a ring of at most 2^24 words it completes; the LFO values, targets, smoother, clamped delays, both lanes, the sticky `DSAT`, the
write head and the phase are those of the rule, and nothing else changes. -/
def Obligations.SampleComputesOneStereoFrame : Prop :=
  (∀ s : State, s.prep = false → exec .sample s = .next (raiseError .unprep s)) ∧
  ∀ s : State, s.prep = true → s.wh.toNat < s.cap.toNat → s.cap.toNat ≤ 2 ^ 24 → s.bufL.wf = true → s.bufR.wf = true →
    let p := s.ports
    let wrap := fun x => if fGe x oneF then fSub x oneF else x
    let vL := Config.hardware.sine.fn (fMul twoPi s.phase)
    let vR := Config.hardware.sine.fn (fMul twoPi (wrap (fAdd s.phase p.pPhaseOffset)))
    let lo := if p.pMode = 1#1 then flMin else chMin
    let hi := if p.pMode = 1#1 then flMax else chMax
    let map := fun v => fAdd lo (fDiv (fMul (fSub hi lo) (fAdd (fMul v p.pDepth) oneF)) twoF)
    let smooth := fSub s.smooth (fMul smoothK (fSub s.smooth (map vL)))
    let top := toF (s.cap.toNat - 1)
    let clamp := fun x => if isNaN x || fLt x zeroF then (zeroF, true) else if fGt x top then (top, true) else (x, false)
    let dL := clamp (fMul smooth s.sr)
    let dR := clamp (fMul (map vR) s.sr)
    ∃ t, exec .sample s = .next t ∧
      LaneFrame s.cap.toNat s.wh.toNat s.bufL p.inL s.fbL dL.1 p.pFeedback p.pMix t.bufL t.fbL t.outL ∧
      LaneFrame s.cap.toNat s.wh.toNat s.bufR p.inR s.fbR dR.1 p.pFeedback p.pMix t.bufR t.fbR t.outR ∧
      t.smooth = smooth ∧ t.dsat = (s.dsat || dL.2 || dR.2) ∧
      t.wh.toNat = (if s.wh.toNat + 1 = s.cap.toNat then 0 else s.wh.toNat + 1) ∧
      t.phase = wrap (fAdd s.phase (fDiv p.pRate s.sr)) ∧
      t.prep = s.prep ∧ t.sr = s.sr ∧ t.cap = s.cap ∧
      t.errUnprep = s.errUnprep ∧ t.errCmd = s.errCmd ∧ t.errCfg = s.errCfg ∧
      t.ports = s.ports ∧ t.inputs = s.inputs ∧ t.faultRecord = s.faultRecord ∧ t.drawsUsed = s.drawsUsed

/-! ### Whole-machine rules -/

/-- R22, R23, R24, R262: only reset and PREPARE change `PREP`, `SR` or `CAP`. -/
def Obligations.OnlyPrepareAndResetChangeTheConfiguration : Prop :=
  ∀ s t : State, step s = .next t → s.nextPorts.rst = false → s.nextPorts.accepts 0x01#8 = false →
    t.prep = s.prep ∧ t.sr = s.sr ∧ t.cap = s.cap

/-- R29: the output registers change only at reset, at a PREPARE (which sets them to `+0.0`) and at a SAMPLE while Prepared. -/
def Obligations.OutputsHoldBetweenFrames : Prop :=
  ∀ s t : State, step s = .next t →
    (s.nextPorts.rst = true ∨ s.nextPorts.accepts 0x01#8 = true → t.outL = zeroF ∧ t.outR = zeroF) ∧
    (s.nextPorts.rst = false → s.nextPorts.accepts 0x01#8 = false → (s.nextPorts.accepts 0x02#8 = true → s.prep = false) →
      t.outL = s.outL ∧ t.outR = s.outR)

/-- R25, R26, R27, R28: the datapath registers and the buffers change only at reset, PREPARE and a SAMPLE while Prepared, and a
PREPARE or a reset leaves the registers at zero. -/
def Obligations.DatapathChangesOnlyAtFramesPreparesAndResets : Prop :=
  ∀ s t : State, step s = .next t →
    (s.nextPorts.rst = true ∨ s.nextPorts.accepts 0x01#8 = true →
      t.wh = 0#24 ∧ t.phase = zeroF ∧ t.smooth = zeroF ∧ t.fbL = zeroF ∧ t.fbR = zeroF) ∧
    (s.nextPorts.rst = false → s.nextPorts.accepts 0x01#8 = false → (s.nextPorts.accepts 0x02#8 = true → s.prep = false) →
      t.wh = s.wh ∧ t.phase = s.phase ∧ t.smooth = s.smooth ∧ t.fbL = s.fbL ∧ t.fbR = s.fbR ∧
      t.bufL = s.bufL ∧ t.bufR = s.bufR)

/-- R30, R228: a flag that is set stays set until CLRERR or reset. -/
def Obligations.FlagsAreSticky : Prop :=
  ∀ s t : State, step s = .next t → s.nextPorts.rst = false → s.nextPorts.accepts 0x03#8 = false →
    (s.errUnprep = true → t.errUnprep = true) ∧ (s.errCmd = true → t.errCmd = true) ∧
    (s.errCfg = true → t.errCfg = true) ∧ (s.dsat = true → t.dsat = true)

/-- R30, R220, R224: each flag is set by the one event the table names and by nothing else; that of `DSAT` is a SAMPLE while
Prepared whose left or right delay, before clamping, was NaN, below zero or above `CAP - 1`. -/
def Obligations.EachFlagIsSetByItsOwnEventOnly : Prop :=
  ∀ s t : State, step s = .next t →
    (s.errUnprep = false → t.errUnprep = true → s.nextPorts.accepts 0x02#8 = true ∧ s.prep = false) ∧
    (s.errCmd = false → t.errCmd = true → s.nextPorts.accepts s.nextPorts.cmd = true ∧ 4 ≤ s.nextPorts.cmd.toNat) ∧
    (s.errCfg = false → t.errCfg = true → s.nextPorts.accepts 0x01#8 = true ∧
      ∀ c, ¬ConfigValid Config.hardware.capMaxOf s.nextPorts.cfgSampleRate s.nextPorts.cfgMaxDelay c) ∧
    (s.dsat = false → t.dsat = true → s.nextPorts.accepts 0x02#8 = true ∧ s.prep = true ∧
      (outsideRing s.cap.toNat (s.unclampedDelays s.nextPorts).1 ∨ outsideRing s.cap.toNat (s.unclampedDelays s.nextPorts).2))

/-- R226, R237: no step takes anything off the fault record, and a step records at most one error, the one whose flag it sets. -/
def Obligations.FaultRecordOnlyGrows : Prop :=
  ∀ s t : State, step s = .next t →
    t.faultRecord = s.faultRecord ∨
    (t.faultRecord = s.faultRecord ++ [.unprep] ∧ t.errUnprep = true) ∨
    (t.faultRecord = s.faultRecord ++ [.cmd] ∧ t.errCmd = true) ∨
    (t.faultRecord = s.faultRecord ++ [.cfg] ∧ t.errCfg = true)

/-- R220, R227: raising an error sets the STATUS bit of its code and leaves the other bits and every other state of the core. -/
def Obligations.RaisingAnErrorSetsItsStatusBitOnly : Prop :=
  ∀ (e : ErrorCause) (s : State),
    (∀ k, (raiseError e s).status.getLsbD k = (s.status.getLsbD k || k == e.code)) ∧
    raiseError e s = { s with
      errUnprep := (raiseError e s).errUnprep, errCmd := (raiseError e s).errCmd, errCfg := (raiseError e s).errCfg,
      faultRecord := s.faultRecord ++ [e] }

/-- R31: the fields of the STATUS word. -/
def Obligations.StatusWordHasItsFields : Prop :=
  ∀ s : State, s.status.getLsbD 0 = s.prep ∧ s.status.getLsbD 1 = s.errUnprep ∧ s.status.getLsbD 2 = s.errCmd ∧
    s.status.getLsbD 3 = s.errCfg ∧ s.status.getLsbD 4 = s.dsat ∧ s.status.extractLsb 7 5 = 0#3

/-- R262, R58: a SAMPLE reads `SR`, never the configuration ports: other levels there change nothing that it writes. -/
def Obligations.SampleIgnoresTheConfigurationPorts : Prop :=
  ∀ (s t : State) (sr md : Word), exec .sample s = .next t →
    exec .sample { s with ports := { s.ports with cfgSampleRate := sr, cfgMaxDelay := md } } =
      .next { t with ports := { t.ports with cfgSampleRate := sr, cfgMaxDelay := md } }

/-- R186: no value crosses from one lane to the other. Two SAMPLEs that agree on what the lanes share and on the left lane write
the same left lane, whatever the right lane and the phase offset hold; and the right lane likewise, whatever the left lane and
the smoother hold. -/
def Obligations.LanesDoNotInfluenceEachOther : Prop :=
  ∀ s s' t t' : State, exec .sample s = .next t → exec .sample s' = .next t' →
    s.prep = s'.prep → s.sr = s'.sr → s.cap = s'.cap → s.wh = s'.wh → s.phase = s'.phase →
    s.ports.pMix = s'.ports.pMix → s.ports.pFeedback = s'.ports.pFeedback → s.ports.pDepth = s'.ports.pDepth →
    s.ports.pRate = s'.ports.pRate → s.ports.pMode = s'.ports.pMode →
      (s.bufL = s'.bufL → s.fbL = s'.fbL → s.outL = s'.outL → s.smooth = s'.smooth → s.ports.inL = s'.ports.inL →
        t.bufL = t'.bufL ∧ t.fbL = t'.fbL ∧ t.outL = t'.outL ∧ t.smooth = t'.smooth ∧ t.wh = t'.wh ∧ t.phase = t'.phase) ∧
      (s.bufR = s'.bufR → s.fbR = s'.fbR → s.outR = s'.outR → s.ports.inR = s'.ports.inR →
        s.ports.pPhaseOffset = s'.ports.pPhaseOffset →
        t.bufR = t'.bufR ∧ t.fbR = t'.fbR ∧ t.outR = t'.outR ∧ t.wh = t'.wh ∧ t.phase = t'.phase)

/-! ### Memory -/

/-- R52: a read returns the word last written at its index, other indices keep theirs, an access outside the ring in use stops,
and a write keeps the canonical form. -/
def Obligations.MemoryReadsWhatWasWritten : Prop :=
  ∀ (cap : Nat) (m : Memory) (i : Int) (v : Word), m.wf = true →
    (0 ≤ i → i < cap → ∃ m', memWrite cap m i v = .ok m' ∧ memRead cap m' i = .ok v ∧ m'.wf = true ∧
      ∀ j, j ≠ i → memRead cap m' j = memRead cap m j) ∧
    (i < 0 ∨ (cap : Int) ≤ i → memWrite cap m i v = .error .bufferIndex ∧ memRead cap m i = .error .bufferIndex)

/-! ### The arithmetic primitives -/

/-- R10: sums, differences, products and quotients of finite values, the divisor not zero, are the exact value rounded to nearest,
ties to even. -/
def Obligations.ArithmeticIsCorrectlyRounded : Prop :=
  ∀ a b : Word, isFinite a = true → isFinite b = true →
    RoundsTo (value a + value b) (fAdd a b) ∧ RoundsTo (value a - value b) (fSub a b) ∧
    RoundsTo (value a * value b) (fMul a b) ∧ (value b ≠ 0 → RoundsTo (value a / value b) (fDiv a b))

/-- R10, R225: the results that are not a rounding. Every NaN answered is the canonical one; the invalid operations are NaN; an
infinite operand, a zero divisor and a zero factor give the IEEE 754 result, and a product or quotient has the sign of IEEE 754,
one that underflows to zero included. What R10 does not list is taken from outside the spec (log entry 12). -/
def Obligations.SpecialResultsFollowIEEE754 : Prop :=
  ∀ a b : Word,
    (∀ r ∈ [fAdd a b, fSub a b, fMul a b, fDiv a b], isNaN r = true → r = canonicalNaN) ∧
    (isNaN a = true ∨ isNaN b = true → ∀ r ∈ [fAdd a b, fSub a b, fMul a b, fDiv a b], r = canonicalNaN) ∧
    (isNaN a = false → isNaN b = false →
      (isInf a = true → isInf b = false → fAdd a b = a ∧ fSub a b = a) ∧
      (isInf b = true → isInf a = false → fAdd a b = b ∧ fSub a b = fNeg b) ∧
      (isInf a = true → isInf b = true →
        fAdd a b = (if signBit a = signBit b then a else canonicalNaN) ∧
        fSub a b = (if signBit a = signBit b then canonicalNaN else a) ∧ fDiv a b = canonicalNaN) ∧
      (isInf a = true → isZero b = true → fMul a b = canonicalNaN ∧ fMul b a = canonicalNaN) ∧
      (isInf a = true → isZero b = false →
        fMul a b = infinity (signBit a != signBit b) ∧ fMul b a = infinity (signBit a != signBit b)) ∧
      (isInf a = true → isInf b = false → fDiv a b = infinity (signBit a != signBit b)) ∧
      (isInf a = false → isInf b = true → fDiv a b = packWord (signBit a != signBit b) 0) ∧
      (isZero a = true → isZero b = true →
        fDiv a b = canonicalNaN ∧ fAdd a b = packWord (signBit a && signBit b) 0) ∧
      (isZero a = false → isZero b = true → fDiv a b = infinity (signBit a != signBit b)) ∧
      (isNaN (fMul a b) = false → signBit (fMul a b) = (signBit a != signBit b)) ∧
      (isNaN (fDiv a b) = false → signBit (fDiv a b) = (signBit a != signBit b)) ∧
      (isZero a = true → isInf b = false →
        fMul a b = packWord (signBit a != signBit b) 0 ∧ fMul b a = packWord (signBit a != signBit b) 0 ∧
        (isZero b = false → fDiv a b = packWord (signBit a != signBit b) 0)) ∧
      (isFinite a = true → isZero a = false → fSub a a = zeroF))

/-- R11: the comparisons order values, infinities outside the finite ones; they are false on a NaN, the zeros compare equal, and
`f_min` and `f_max` choose by them. -/
def Obligations.ComparisonsOrderValues : Prop :=
  (∀ a b : Word, isFinite a = true → isFinite b = true →
    (fLt a b = true ↔ value a < value b) ∧ (fGt a b = true ↔ value b < value a) ∧ (fGe a b = true ↔ value b ≤ value a)) ∧
  (∀ a : Word, isFinite a = true → fLt a (infinity false) = true ∧ fGt a (infinity true) = true) ∧
  (fLt (infinity true) (infinity false) = true ∧ ∀ neg, fGe (infinity neg) (infinity neg) = true) ∧
  (∀ a b : Word, isNaN a = true ∨ isNaN b = true → fLt a b = false ∧ fGt a b = false ∧ fGe a b = false) ∧
  (fLt (fNeg zeroF) zeroF = false ∧ fGt zeroF (fNeg zeroF) = false ∧ fGe (fNeg zeroF) zeroF = true) ∧
  (∀ a : Word, (isNaN a = true ↔ expField a = 255 ∧ fracField a ≠ 0) ∧
    (isFinite a = true ↔ isNaN a = false ∧ isInf a = false)) ∧
  (∀ a b : Word, fMin a b = (if fLt a b then a else b) ∧ fMax a b = (if fGt a b then a else b))

/-- R12: `toF` is exact up to 2^24, and `floorI` is the mathematical floor of a finite value. -/
def Obligations.ConversionsAreExact : Prop :=
  (∀ n : Nat, n ≤ 2 ^ 24 → isFinite (toF n) = true ∧ value (toF n) = n) ∧
  ∀ x : Word, isFinite x = true → floorI x = some ⌊value x⌋

/-! ### The delay buffer -/

/-- R103: the read position of a clamped delay is in [0, CAP), no NaN and not `-0.0`. -/
def Obligations.ReadPositionStaysInTheRing : Prop :=
  ∀ (cap wh : Nat) (d : Word), wh < cap → cap ≤ 2 ^ 24 → isNaN d = false → fLt d zeroF = false → fGt d (toF (cap - 1)) = false →
    fGe (readPos cap wh d) zeroF = true ∧ fLt (readPos cap wh d) (toF cap) = true ∧
    isNaN (readPos cap wh d) = false ∧ readPos cap wh d ≠ 0x80000000#32

/-- R106, R107: an integer delay `d` reads the word at `(WH - d) mod CAP` with fraction `+0.0`; the largest delay reads the oldest
word, at `(WH + 1) mod CAP`. -/
def Obligations.IntegerDelayReadsTheWordThatManyFramesBack : Prop :=
  ∀ cap wh d : Nat, wh < cap → cap ≤ 2 ^ 24 → d < cap →
    (∃ i1 : Int, split cap (readPos cap wh (toF d)) = some ((((wh + (cap - d)) % cap : Nat) : Int), i1, zeroF)) ∧
    (d = cap - 1 → (wh + (cap - d)) % cap = (wh + 1) % cap)

/-- R105, R25: the write head advances by one modulo the capacity and stays inside the ring. -/
def Obligations.WriteHeadAdvancesModuloTheCapacity : Prop :=
  ∀ (cap : BitVec 25) (wh : BitVec 24), wh.toNat < cap.toNat → cap.toNat ≤ 2 ^ 24 →
    (headAdvance cap wh).toNat = (wh.toNat + 1) % cap.toNat ∧ (headAdvance cap wh).toNat < cap.toNat

/-- R61, R164, R257: with delay `+0.0` the delayed sample is the word this SAMPLE has just written, in value, when that word and
the other word read are finite. -/
def Obligations.ZeroDelayReadsTheWordJustWritten : Prop :=
  ∀ (cap wh : Nat) (m : Memory) (wv : Word), wh < cap → cap ≤ 2 ^ 24 → m.wf = true → isFinite wv = true →
    isFinite ((m.write wh wv).read (if wh + 1 = cap then 0 else wh + 1)) = true →
      ∃ y, readDelayed cap (m.write wh wv) (readPos cap wh zeroF) = .ok y ∧ isFinite y = true ∧ value y = value wv

/-! ### The LFO -/

/-- R126: the phase stays in [0, 1) while the increment is in [0, 1), which every rate in [0.1, 20] and every `SR` above 20 give. -/
def Obligations.PhaseStaysInTheUnitInterval : Prop :=
  (∀ phase rate sr : Word, inUnit phase = true → inUnit (fDiv rate sr) = true → inUnit (lfoAdvance phase rate sr) = true) ∧
  ∀ rate sr : Word, between 0x3DCCCCCD#32 rate 0x41A00000#32 = true → fGt sr 0x41A00000#32 = true →
    inUnit (fDiv rate sr) = true

/-- Section 41, PHASE_R: with `PHASE` in [0, 1) and an offset in [0, 1] the right phase is in [0, 1], the end included. -/
def Obligations.RightPhaseStaysInTheClosedUnitInterval : Prop :=
  ∀ phase offset : Word, inUnit phase = true → between zeroF offset oneF = true →
    between zeroF (phaseRight phase offset) oneF = true

/-- Section 41, PHASE_R, the literal words "`phR` is in [0,1)". Binary32 does not give it: `PHASE = 0x3F7FFFFF` and offset 1.0 sum to
2.0 after rounding, and one subtraction leaves 1.0. -/
def Obligations.RightPhaseStaysBelowOne : Prop :=
  ∀ phase offset : Word, inUnit phase = true → between zeroF offset oneF = true → inUnit (phaseRight phase offset) = true

/-- R124, R125: for a phase in [0, 1] the argument of the sine is in [0, TWO_PI], and the LFO value is finite, in [-1, 1] and within
`SIN_TOL` of the sine of the argument. At phase `+0.0` it is `+0.0`; at a phase that is not finite it is the canonical NaN. -/
def Obligations.LfoValueIsASineOfThePhase : Prop :=
  (∀ phase : Word, between zeroF phase oneF = true →
    let x := fMul twoPi phase
    let v := lfoValue Config.hardware.sine.fn phase
    isFinite x = true ∧ 0 ≤ value x ∧ value x ≤ value twoPi ∧
    isFinite v = true ∧ -1 ≤ value v ∧ value v ≤ 1 ∧
    |((value v : ℚ) : ℝ) - Real.sin ((value x : ℚ) : ℝ)| ≤ ((Config.hardware.sine.tol : ℚ) : ℝ)) ∧
  lfoValue Config.hardware.sine.fn zeroF = zeroF ∧
  ∀ phase : Word, isFinite phase = false → lfoValue Config.hardware.sine.fn phase = canonicalNaN

/-! ### The delay mapper -/

/-- R143: MAP keeps to the range of the mode and is non-decreasing in `v * depth`. -/
def Obligations.MapStaysInTheModeRange : Prop :=
  ∀ (mode : Mode) (v depth v' depth' : Word),
    between (fNeg oneF) v oneF = true → between zeroF depth oneF = true →
    between (fNeg oneF) v' oneF = true → between zeroF depth' oneF = true →
      between (delayRange mode).1 (mapDelay (delayRange mode) depth v) (delayRange mode).2 = true ∧
      (value v * value depth ≤ value v' * value depth' →
        fGe (mapDelay (delayRange mode) depth' v') (mapDelay (delayRange mode) depth v) = true)

/-- R147 (a), where the difference of state and target does not overflow: one step of the smoother ends between its state and its
target, both included. -/
def Obligations.SmootherNeverOvershootsAFiniteDifference : Prop :=
  ∀ smooth target : Word, isFinite smooth = true → isFinite target = true → isFinite (fSub smooth target) = true →
    (fGe smooth target = true → between target (smoothStep smooth target) smooth = true) ∧
    (fGe target smooth = true → between smooth (smoothStep smooth target) target = true)

/-- R147 (a), the literal words, for every finite state and target. An overflow of their difference breaks it: from the largest
finite value towards its negative the smoother lands at minus infinity. -/
def Obligations.SmootherNeverOvershootsAnyFiniteTarget : Prop :=
  ∀ smooth target : Word, isFinite smooth = true → isFinite target = true → fGe smooth target = true →
    between target (smoothStep smooth target) smooth = true

/-- R146, R224: the clamped delay is in [0, CAP - 1] and no NaN for every value, the flag tells whether it was clamped, and a delay
that was not is unchanged. -/
def Obligations.ClampedDelayFitsTheRing : Prop :=
  ∀ (cap : Nat) (x : Word), 1 ≤ cap → cap ≤ 2 ^ 24 →
    fGe (dclamp cap x).1 zeroF = true ∧ fGe (toF (cap - 1)) (dclamp cap x).1 = true ∧
    ((dclamp cap x).2 = true ↔ isNaN x = true ∨ fLt x zeroF = true ∨ fGt x (toF (cap - 1)) = true) ∧
    ((dclamp cap x).2 = false → (dclamp cap x).1 = x)

/-- R148: a delay time in [0, hi] is not clamped when `f_mul(hi, SR)` is at most `CAP - 1`. -/
def Obligations.DelayWithinTheRingIsNotClamped : Prop :=
  ∀ (cap : Nat) (seconds hi sr : Word), cap ≤ 2 ^ 24 → isFinite hi = true → isFinite sr = true → fGt sr zeroF = true →
    between zeroF seconds hi = true → fGe (toF (cap - 1)) (fMul hi sr) = true →
      toSamples cap seconds sr = (fMul seconds sr, false)

/-! ### The interpolator -/

/-- R160: SPLIT of a position in the ring gives two indices in use and the exact fraction, in [0, 1). -/
def Obligations.SplitIsExactAndInBounds : Prop :=
  ∀ (cap : Nat) (p : Word), cap ≤ 2 ^ 24 → fGe p zeroF = true → fLt p (toF cap) = true →
    ∃ i0 : Nat, ∃ frac : Word,
      split cap p = some ((i0 : Int), ((if i0 + 1 = cap then 0 else i0 + 1 : Nat) : Int), frac) ∧
      i0 < cap ∧ (if i0 + 1 = cap then 0 else i0 + 1) < cap ∧ frac = fSub p (toF i0) ∧ (i0 : ℚ) ≤ value p ∧ value p < i0 + 1 ∧
      isFinite frac = true ∧ value frac = value p - i0 ∧ 0 ≤ value frac ∧ value frac < 1

/-- R162: the interpolated value is between the two words read, unless it is NaN, which takes an undefined product or sum of
infinities; of two equal words it is that word, but for the sign of a zero; and without the clamp this would fail, by the rule's
example. -/
def Obligations.InterpolationStaysBetweenTheWords : Prop :=
  (∀ x0 x1 frac : Word, inUnit frac = true → isNaN x0 = false → isNaN x1 = false →
    (isNaN (lerp x0 x1 frac) = true ↔
      isZero frac = true ∧ isInf x1 = true ∨ isInf x0 = true ∧ isInf x1 = true ∧ signBit x0 ≠ signBit x1) ∧
    (isNaN (lerp x0 x1 frac) = false → between (fMin x0 x1) (lerp x0 x1 frac) (fMax x0 x1) = true ∧
      (x0 = x1 → lerp x0 x1 frac = x0 ∨ isZero x0 = true ∧ isZero (lerp x0 x1 frac) = true))) ∧
  (fSub oneF 0x3EFDA9AB#32 = 0x3F012B2A#32 ∧
    fAdd (fMul 0x3F012B2A#32 0xBEFACF2F#32) (fMul 0x3EFDA9AB#32 0xBEFACF2F#32) = 0xBEFACF2E#32 ∧
    lerp 0xBEFACF2F#32 0xBEFACF2F#32 0x3EFDA9AB#32 = 0xBEFACF2F#32)

/-! ### Feedback and mix -/

/-- R184: the crossfade at its end points. -/
def Obligations.CrossfadeEndPoints : Prop :=
  ∀ dry y : Word,
    xfade dry y zeroF = fAdd (fMul dry oneF) (fMul y zeroF) ∧ xfade dry y oneF = fAdd (fMul dry zeroF) y ∧
    (isFinite dry = true → isFinite y = true →
      value (xfade dry y zeroF) = value dry ∧
      (xfade dry y zeroF = dry ∨ dry = 0x80000000#32 ∧ xfade dry y zeroF = 0x00000000#32)) ∧
    (isFinite y = false → xfade dry y zeroF = canonicalNaN) ∧
    (isFinite dry = true → isNaN y = false → fGe (xfade dry y oneF) y = true ∧ fGe y (xfade dry y oneF) = true) ∧
    (isFinite dry = false → xfade dry y oneF = canonicalNaN)

/-- R185: with silent input and a feedback gain of magnitude at most 1, a bound on the words in use and on the feedback registers
is kept by every SAMPLE, so nothing diverges. -/
def Obligations.SilentInputNeverGrows : Prop :=
  ∀ (s t : State) (b : Word), s.Inv Config.hardware.capMaxOf → s.prep = true → isFinite b = true →
    isZero s.ports.inL = true → isZero s.ports.inR = true → withinMag oneF s.ports.pFeedback = true →
    withinMag b s.fbL = true → withinMag b s.fbR = true →
    (∀ i, i < s.cap.toNat → withinMag b (s.bufL.read i) = true ∧ withinMag b (s.bufR.read i) = true) →
    exec .sample s = .next t →
      withinMag b t.fbL = true ∧ withinMag b t.fbR = true ∧
      ∀ i, i < t.cap.toNat → withinMag b (t.bufL.read i) = true ∧ withinMag b (t.bufR.read i) = true

/-- R40: with rate, phase offset, depth and feedback in their documented ranges (any mix), `SR` above 20, inputs of magnitude at most
`m`, and a finite `b` with `f_add(m, f_mul(0.98, b)) ≤ b`, every SAMPLE keeps the phase in [0, 1), the smoother in [0, CH_MAX] and
every word in use within `b`; and every step does that asks this of the SAMPLE it may run. -/
def Obligations.InRangeRunsStayBounded : Prop :=
  ∀ (s t : State) (m b : Word), s.Inv Config.hardware.capMaxOf → isFinite b = true →
    fGe b (fAdd m (fMul feedbackMax b)) = true → s.Bounded b →
      (s.prep = true → fGt s.sr 0x41A00000#32 = true → s.ports.inRange = true →
        withinMag m s.ports.inL = true → withinMag m s.ports.inR = true → exec .sample s = .next t → t.Bounded b) ∧
      ((s.prep = true → s.nextPorts.accepts 0x02#8 = true → fGt s.sr 0x41A00000#32 = true ∧ s.nextPorts.inRange = true ∧
          withinMag m s.nextPorts.inL = true ∧ withinMag m s.nextPorts.inR = true) →
        step s = .next t → t.Bounded b)

/-- R37, R40: a valid PREPARE establishes the value invariants, for every bound that is no NaN and not negative. -/
def Obligations.PrepareEstablishesTheBounds : Prop :=
  ∀ (s t : State) (b : Word), fGe b zeroF = true → exec .prepare s = .next t → t.prep = true → t.Bounded b

/-! ### The output ports -/

/-- R32, R80, R81: in every state the output ports show `OUT_L`, `OUT_R`, `STATUS`, `CAP` and `WH`, and `cmd_ready` is 0 exactly while
`rst` is 1 (between two commands, which is where the model observes them: log entry 10). -/
def Obligations.OutputPortsShowTheState : Prop :=
  ∀ s : State, s.outputs =
    { cmdReady := !s.ports.rst, outL := s.outL, outR := s.outR, status := s.status, capacity := s.cap, writeHead := s.wh }
end

