-- ==== Sys2Proof/Laws/Binary32.lean ====
section
/-! SUPPORT. What the binary32 primitives do, once: the fields of a packed word, the magnitude as an increasing function of its
bits, and rounding that is exact on representable values and respects representable bounds. -/

namespace Sys2Proof.Machine

/-! ### Fields as arithmetic -/

theorem magBits_eq (w : Word) : magBits w = w.toNat % 2 ^ 31 := by
  simp [magBits, BitVec.extractLsb, BitVec.extractLsb'_toNat]

theorem expField_eq (w : Word) : expField w = w.toNat / 2 ^ 23 % 2 ^ 8 := by
  simp [expField, BitVec.extractLsb, BitVec.extractLsb'_toNat, Nat.shiftRight_eq_div_pow]

theorem fracField_eq (w : Word) : fracField w = w.toNat % 2 ^ 23 := by
  simp [fracField, BitVec.extractLsb, BitVec.extractLsb'_toNat]

theorem signBit_eq (w : Word) : signBit w = decide (2 ^ 31 ≤ w.toNat) := by
  have hw := w.isLt
  unfold signBit BitVec.getLsbD
  rw [Nat.testBit_eq_decide_div_mod_eq, decide_eq_decide]
  omega

theorem magBits_lt (w : Word) : magBits w < 2 ^ 31 := by rw [magBits_eq]; omega

theorem isFinite_iff (w : Word) : isFinite w = true ↔ magBits w < infBits := by
  have hw := w.isLt
  simp only [isFinite, expField_eq, magBits_eq, infBits, bne_iff_ne, ne_eq]
  omega

theorem isInf_iff (w : Word) : isInf w = true ↔ magBits w = infBits := by
  have hw := w.isLt
  simp only [isInf, expField_eq, fracField_eq, magBits_eq, infBits, Bool.and_eq_true, beq_iff_eq]
  omega

theorem isNaN_iff (w : Word) : isNaN w = true ↔ infBits < magBits w := by
  have hw := w.isLt
  simp only [isNaN, expField_eq, fracField_eq, magBits_eq, infBits, Bool.and_eq_true, beq_iff_eq, bne_iff_ne, ne_eq]
  omega

theorem isZero_iff (w : Word) : isZero w = true ↔ magBits w = 0 := by simp [isZero]

theorem isNaN_eq_false_iff (w : Word) : isNaN w = false ↔ magBits w ≤ infBits := by
  rw [← Bool.not_eq_true, isNaN_iff]; omega

theorem isInf_eq_false_of_finite {w : Word} (h : isFinite w = true) : isInf w = false := by
  rw [isFinite_iff] at h; rw [← Bool.not_eq_true, isInf_iff]; omega

theorem isNaN_eq_false_of_finite {w : Word} (h : isFinite w = true) : isNaN w = false := by
  rw [isFinite_iff] at h; rw [isNaN_eq_false_iff]; omega

/-- A word that is no NaN is finite or infinite. -/
theorem finite_or_inf {w : Word} (h : isNaN w = false) : isFinite w = true ∨ isInf w = true := by
  rw [isNaN_eq_false_iff] at h; rw [isFinite_iff, isInf_iff]; omega

/-! ### A packed word -/

theorem toNat_packWord {neg : Bool} {m : Nat} (h : m < 2 ^ 31) :
    (packWord neg m).toNat = (if neg then 2 ^ 31 else 0) + m := by
  cases neg <;> simp [packWord, BitVec.toNat_ofNat] <;> omega

@[simp] theorem magBits_packWord {neg : Bool} {m : Nat} (h : m < 2 ^ 31) : magBits (packWord neg m) = m := by
  rw [magBits_eq, toNat_packWord h]; cases neg <;> simp <;> omega

@[simp] theorem signBit_packWord {neg : Bool} {m : Nat} (h : m < 2 ^ 31) : signBit (packWord neg m) = neg := by
  rw [signBit_eq, toNat_packWord h]; cases neg <;> simp; omega

theorem units_packWord {neg : Bool} {m : Nat} (h : m < 2 ^ 31) :
    units (packWord neg m) = if neg then -(magUnits m : Int) else (magUnits m : Int) := by
  rw [units, magBits_packWord h, signBit_packWord h]

/-- A word is its sign and its bits 30:0. -/
theorem packWord_self (w : Word) : packWord (signBit w) (magBits w) = w := by
  apply BitVec.eq_of_toNat_eq
  have hw := w.isLt
  rw [toNat_packWord (magBits_lt w), signBit_eq, magBits_eq]
  simp only [decide_eq_true_eq]
  split <;> omega

theorem eq_of_sign_mag {a b : Word} (hs : signBit a = signBit b) (hm : magBits a = magBits b) : a = b := by
  rw [← packWord_self a, ← packWord_self b, hs, hm]

@[simp] theorem signBit_fNeg (w : Word) : signBit (fNeg w) = !signBit w := signBit_packWord (magBits_lt w)

@[simp] theorem magBits_fNeg (w : Word) : magBits (fNeg w) = magBits w := magBits_packWord (magBits_lt w)

@[simp] theorem units_fNeg (w : Word) : units (fNeg w) = -units w := by
  unfold units
  rw [signBit_fNeg, magBits_fNeg]
  cases signBit w <;> simp

@[simp] theorem isNaN_fNeg (w : Word) : isNaN (fNeg w) = isNaN w := by
  rw [Bool.eq_iff_iff, isNaN_iff, isNaN_iff, magBits_fNeg]

@[simp] theorem isInf_fNeg (w : Word) : isInf (fNeg w) = isInf w := by
  rw [Bool.eq_iff_iff, isInf_iff, isInf_iff, magBits_fNeg]

@[simp] theorem isFinite_fNeg (w : Word) : isFinite (fNeg w) = isFinite w := by
  rw [Bool.eq_iff_iff, isFinite_iff, isFinite_iff, magBits_fNeg]

/-! ### The magnitude as a function of its bits -/

/-- The magnitude of a subnormal, or of a normal binade, from the significand: `n` is below 2^24, and at least 2^23 when bits
are dropped. -/
theorem magUnits_significand {sh n : Nat} (hn : n ≤ 2 ^ 24) (hsh : sh = 0 ∨ 2 ^ 23 ≤ n) :
    magUnits (2 ^ 23 * sh + n) = n * 2 ^ sh := by
  unfold magUnits
  rcases Nat.lt_or_ge n (2 ^ 23) with h | h
  · have : sh = 0 := by omega
    subst this
    have h0 : (2 ^ 23 * 0 + n) / 2 ^ 23 = 0 := by omega
    have h1 : (2 ^ 23 * 0 + n) % 2 ^ 23 = n := by omega
    rw [if_pos h0, h1]; simp
  rcases Nat.lt_or_ge n (2 ^ 24) with h' | h'
  · have h0 : (2 ^ 23 * sh + n) / 2 ^ 23 = sh + 1 := by omega
    have h1 : (2 ^ 23 * sh + n) % 2 ^ 23 = n - 2 ^ 23 := by omega
    rw [h0, h1, if_neg (by omega)]
    have : 2 ^ 23 + (n - 2 ^ 23) = n := by omega
    rw [this]; simp
  · have hn' : n = 2 ^ 24 := by omega
    have h0 : (2 ^ 23 * sh + n) / 2 ^ 23 = sh + 2 := by omega
    have h1 : (2 ^ 23 * sh + n) % 2 ^ 23 = 0 := by omega
    rw [h0, h1, if_neg (by omega), hn']
    have : sh + 2 - 1 = sh + 1 := by omega
    rw [this, pow_succ]; ring

/-- Every number of bits is a significand with its dropped bits. -/
theorem bits_significand (m : Nat) :
    ∃ sh n, m = 2 ^ 23 * sh + n ∧ n < 2 ^ 24 ∧ (sh = 0 ∨ 2 ^ 23 ≤ n) := by
  rcases Nat.lt_or_ge m (2 ^ 23) with h | h
  · exact ⟨0, m, by omega, by omega, .inl rfl⟩
  · exact ⟨m / 2 ^ 23 - 1, m % 2 ^ 23 + 2 ^ 23, by omega, by omega, .inr (by omega)⟩

theorem magUnits_lt_succ (m : Nat) : magUnits m < magUnits (m + 1) := by
  obtain ⟨sh, n, rfl, hn, hsh⟩ := bits_significand m
  rw [magUnits_significand (by omega) hsh, Nat.add_assoc, magUnits_significand (by omega) (by omega)]
  exact Nat.mul_lt_mul_of_pos_right (by omega) (by positivity)

theorem magUnits_strictMono : StrictMono magUnits := strictMono_nat_of_lt_succ magUnits_lt_succ

@[simp] theorem magUnits_lt_iff {a b : Nat} : magUnits a < magUnits b ↔ a < b := magUnits_strictMono.lt_iff_lt

@[simp] theorem magUnits_le_iff {a b : Nat} : magUnits a ≤ magUnits b ↔ a ≤ b := magUnits_strictMono.le_iff_le

@[simp] theorem magUnits_zero : magUnits 0 = 0 := by decide

@[simp] theorem magUnits_eq_zero_iff {m : Nat} : magUnits m = 0 ↔ m = 0 := by
  have h := magUnits_strictMono.injective.eq_iff (a := m) (b := 0)
  rwa [magUnits_zero] at h

/-! ### Rounding -/

/-- The bits that `roundMag` rounds from: the significand of the largest magnitude not above `num/den`. -/
theorem roundMag_floor (num den : Nat) :
    let sh := dropBits (num / den)
    let n := num / (den * 2 ^ sh)
    n < 2 ^ 24 ∧ (sh = 0 ∨ 2 ^ 23 ≤ n) := by
  intro sh n
  have hn : n = num / den / 2 ^ sh := by simp only [n]; rw [Nat.div_div_eq_div_mul]
  have hsh : sh = (num / den).log2 - 23 := rfl
  rcases Nat.eq_zero_or_pos (num / den) with h0 | hpos
  · rw [hn, h0]; constructor
    · simp
    · left; rw [hsh, h0]; decide
  have hlo := Nat.log2_self_le (Nat.pos_iff_ne_zero.mp hpos)
  have hhi := Nat.lt_log2_self (n := num / den)
  rw [hn]
  rcases Nat.lt_or_ge (num / den).log2 24 with h | h
  · have : sh = 0 := by omega
    rw [this]
    refine ⟨?_, .inl rfl⟩
    have : 2 ^ ((num / den).log2 + 1) ≤ 2 ^ 24 := Nat.pow_le_pow_right (by omega) (by omega)
    simp only [pow_zero, Nat.div_one]
    omega
  · have e : (num / den).log2 = sh + 23 := by omega
    rw [e] at hlo hhi
    constructor
    · rw [Nat.div_lt_iff_lt_mul (by positivity)]
      calc num / den < 2 ^ (sh + 23 + 1) := hhi
        _ = 2 ^ 24 * 2 ^ sh := by rw [show sh + 23 + 1 = 24 + sh by omega, pow_add]
    · right
      rw [Nat.le_div_iff_mul_le (by positivity)]
      calc 2 ^ 23 * 2 ^ sh = 2 ^ (sh + 23) := by rw [show sh + 23 = 23 + sh by omega, pow_add]
        _ ≤ num / den := hlo

theorem le_roundHalfEven (n r step : Nat) : n ≤ roundHalfEven n r step := by unfold roundHalfEven; split <;> omega

theorem roundHalfEven_le (n r step : Nat) : roundHalfEven n r step ≤ n + 1 := by unfold roundHalfEven; split <;> omega

theorem roundHalfEven_zero {n step : Nat} (h : 0 < step) : roundHalfEven n 0 step = n := by
  unfold roundHalfEven; rw [if_neg]; omega

theorem roundMag_le_infBits (num den : Nat) : roundMag num den ≤ infBits := Nat.min_le_right _ _

theorem roundMag_lt (num den : Nat) : roundMag num den < 2 ^ 31 :=
  Nat.lt_of_le_of_lt (roundMag_le_infBits num den) (by decide)

/-- Rounding does not pass a representable upper bound. -/
theorem roundMag_le {num den c : Nat} (hd : 0 < den) (h : num ≤ magUnits c * den) : roundMag num den ≤ c := by
  obtain ⟨hn, hsh⟩ := roundMag_floor num den
  have hr := le_roundHalfEven
  simp only [roundMag]
  generalize dropBits (num / den) = sh at *
  have hpos : 0 < den * 2 ^ sh := by positivity
  have hval := magUnits_significand (Nat.le_of_lt hn) hsh
  have hdm := Nat.div_add_mod num (den * 2 ^ sh)
  generalize num / (den * 2 ^ sh) = n at *
  generalize num % (den * 2 ^ sh) = r at *
  have hle : n * (den * 2 ^ sh) ≤ num := by rw [← hdm, Nat.mul_comm]; omega
  have hm0 : magUnits (2 ^ 23 * sh + n) * den ≤ magUnits c * den := by
    rw [hval, Nat.mul_assoc, Nat.mul_comm (2 ^ sh)]; omega
  have hm : 2 ^ 23 * sh + n ≤ c := magUnits_le_iff.mp (Nat.le_of_mul_le_mul_right hm0 hd)
  rcases Nat.lt_or_ge (2 ^ 23 * sh + n) c with hlt | hge
  · have := roundHalfEven_le n r (den * 2 ^ sh)
    exact Nat.le_trans (Nat.min_le_left _ _) (by omega)
  · have hc : c = 2 ^ 23 * sh + n := by omega
    subst hc
    have : r = 0 := by
      rw [hval, Nat.mul_assoc, Nat.mul_comm (2 ^ sh)] at h
      rw [Nat.mul_comm] at hdm
      omega
    rw [this, roundHalfEven_zero hpos]
    exact Nat.min_le_left _ _

/-- Rounding does not pass a representable lower bound. -/
theorem le_roundMag {num den c : Nat} (hd : 0 < den) (hc : c ≤ infBits) (h : magUnits c * den ≤ num) :
    c ≤ roundMag num den := by
  obtain ⟨hn, hsh⟩ := roundMag_floor num den
  simp only [roundMag]
  generalize dropBits (num / den) = sh at *
  have hpos : 0 < den * 2 ^ sh := by positivity
  have hlt : num < (num / (den * 2 ^ sh) + 1) * (den * 2 ^ sh) := by
    have := Nat.div_add_mod num (den * 2 ^ sh)
    have := Nat.mod_lt num hpos
    rw [Nat.add_mul, Nat.mul_comm (num / _)]; omega
  have hval : magUnits (2 ^ 23 * sh + (num / (den * 2 ^ sh) + 1)) = (num / (den * 2 ^ sh) + 1) * 2 ^ sh :=
    magUnits_significand (by omega) (by omega)
  have hlo := le_roundHalfEven (num / (den * 2 ^ sh)) (num % (den * 2 ^ sh)) (den * 2 ^ sh)
  generalize num / (den * 2 ^ sh) = n at *
  have hm : magUnits c * den < magUnits (2 ^ 23 * sh + (n + 1)) * den := by
    rw [hval, Nat.mul_assoc, Nat.mul_comm (2 ^ sh)]; omega
  have := magUnits_lt_iff.mp (Nat.lt_of_mul_lt_mul_right hm)
  exact Nat.le_min.mpr ⟨by omega, hc⟩

/-- A representable magnitude is its own rounding. -/
theorem roundMag_exact {den c : Nat} (hd : 0 < den) (hc : c ≤ infBits) : roundMag (magUnits c * den) den = c :=
  Nat.le_antisymm (roundMag_le hd (Nat.le_refl _)) (le_roundMag hd hc (Nat.le_refl _))

@[simp] theorem roundMag_zero {den : Nat} (hd : 0 < den) : roundMag 0 den = 0 := by
  have := roundMag_exact (c := 0) hd (by decide)
  simpa using this

/-! ### Rounding a signed value -/

@[simp] theorem signBit_roundWord (neg : Bool) (num den : Nat) : signBit (roundWord neg num den) = neg :=
  signBit_packWord (roundMag_lt num den)

@[simp] theorem magBits_roundWord (neg : Bool) (num den : Nat) : magBits (roundWord neg num den) = roundMag num den :=
  magBits_packWord (roundMag_lt num den)

@[simp] theorem isNaN_roundWord (neg : Bool) (num den : Nat) : isNaN (roundWord neg num den) = false := by
  rw [isNaN_eq_false_iff, magBits_roundWord]; exact roundMag_le_infBits num den

theorem units_eq_or (w : Word) : units w = magUnits (magBits w) ∨ units w = -(magUnits (magBits w) : Int) := by
  unfold units; split <;> simp

theorem natAbs_units (w : Word) : (units w).natAbs = magUnits (magBits w) := by
  rcases units_eq_or w with h | h <;> rw [h] <;> simp

theorem units_eq_zero_iff {w : Word} : units w = 0 ↔ isZero w = true := by
  rw [isZero_iff, ← Int.natAbs_eq_zero, natAbs_units, magUnits_eq_zero_iff]

/-- A word that is no NaN has its magnitude bits at most those of an infinity. -/
theorem magBits_le_infBits {w : Word} (h : isNaN w = false) : magBits w ≤ infBits := (isNaN_eq_false_iff w).mp h

/-- Rounding `x = ±num/den` does not pass a representable lower bound `c`. -/
theorem le_units_roundWord {neg : Bool} {num den : Nat} {c : Word} (hd : 0 < den) (hc : isNaN c = false)
    (h : units c * (den : Int) ≤ if neg then -(num : Int) else num) : units c ≤ units (roundWord neg num den) := by
  have hcb := magBits_le_infBits hc
  rw [roundWord, units_packWord (roundMag_lt num den)]
  have hunits : units c = if signBit c then -(magUnits (magBits c) : Int) else (magUnits (magBits c) : Int) := rfl
  generalize magBits c = m at *
  rw [hunits] at h ⊢
  cases hs : signBit c <;> cases neg <;> simp only [hs, Bool.false_eq_true, if_false, if_true] at h ⊢
  · exact_mod_cast magUnits_le_iff.mpr (le_roundMag hd hcb (by exact_mod_cast h))
  · have h0 : magUnits m = 0 := by
      rcases Nat.eq_zero_or_pos (magUnits m) with h0 | h0
      · exact h0
      · exfalso
        have : (0 : Int) < magUnits m * den := by exact_mod_cast Nat.mul_pos h0 hd
        omega
    have hnum : num = 0 := by rw [h0] at h; omega
    rw [h0, hnum, roundMag_zero hd]; simp
  · have : (0 : Int) ≤ magUnits m := by positivity
    have : (0 : Int) ≤ magUnits (roundMag num den) := by positivity
    omega
  · have h' : num ≤ magUnits m * den := by
      have : (num : Int) ≤ magUnits m * den := by rw [Int.neg_mul] at h; omega
      exact_mod_cast this
    have := magUnits_le_iff.mpr (roundMag_le hd h')
    omega

theorem units_packWord_neg {neg : Bool} {m : Nat} (h : m < 2 ^ 31) :
    units (packWord (!neg) m) = -units (packWord neg m) := by
  rw [units_packWord h, units_packWord h]; cases neg <;> simp

/-- Rounding `x = ±num/den` does not pass a representable upper bound `c`. -/
theorem units_roundWord_le {neg : Bool} {num den : Nat} {c : Word} (hd : 0 < den) (hc : isNaN c = false)
    (h : (if neg then -(num : Int) else num) ≤ units c * (den : Int)) : units (roundWord neg num den) ≤ units c := by
  have := le_units_roundWord (neg := !neg) (num := num) (c := fNeg c) hd (by simpa using hc)
    (by rw [units_fNeg, Int.neg_mul]; cases neg <;> simp at h ⊢ <;> omega)
  rw [units_fNeg, roundWord, units_packWord_neg (roundMag_lt num den)] at this
  rw [roundWord]; omega

/-! ### The operations on finite operands -/

theorem fAdd_finite {a b : Word} (ha : isFinite a = true) (hb : isFinite b = true) :
    fAdd a b = if units a + units b = 0 then packWord (signBit a && signBit b) 0
      else roundWord (decide (units a + units b < 0)) (units a + units b).natAbs 1 := by
  simp [fAdd, isNaN_eq_false_of_finite ha, isNaN_eq_false_of_finite hb, isInf_eq_false_of_finite ha,
    isInf_eq_false_of_finite hb]

theorem fMul_finite {a b : Word} (ha : isFinite a = true) (hb : isFinite b = true) :
    fMul a b = roundWord (signBit a != signBit b) ((units a).natAbs * (units b).natAbs) (2 ^ 149) := by
  simp [fMul, isNaN_eq_false_of_finite ha, isNaN_eq_false_of_finite hb, isInf_eq_false_of_finite ha,
    isInf_eq_false_of_finite hb]

theorem fDiv_finite {a b : Word} (ha : isFinite a = true) (hb : isFinite b = true) (h0 : isZero b = false) :
    fDiv a b = roundWord (signBit a != signBit b) (2 ^ 149 * (units a).natAbs) (units b).natAbs := by
  simp [fDiv, isNaN_eq_false_of_finite ha, isNaN_eq_false_of_finite hb, isInf_eq_false_of_finite ha,
    isInf_eq_false_of_finite hb, h0]

theorem signed_natAbs (x : Int) : (if decide (x < 0) = true then -(x.natAbs : Int) else (x.natAbs : Int)) = x := by
  simp only [decide_eq_true_eq]; split <;> omega

theorem isNaN_packWord_zero (neg : Bool) : isNaN (packWord neg 0) = false := by cases neg <;> decide

theorem units_packWord_zero (neg : Bool) : units (packWord neg 0) = 0 := by cases neg <;> decide

/-- The sum of two finite values is never a NaN. -/
theorem isNaN_fAdd_finite {a b : Word} (ha : isFinite a = true) (hb : isFinite b = true) : isNaN (fAdd a b) = false := by
  rw [fAdd_finite ha hb]; split
  · exact isNaN_packWord_zero _
  · exact isNaN_roundWord _ _ _

/-- A sum does not pass a representable lower bound. -/
theorem le_units_fAdd {a b c : Word} (ha : isFinite a = true) (hb : isFinite b = true) (hc : isNaN c = false)
    (h : units c ≤ units a + units b) : units c ≤ units (fAdd a b) := by
  rw [fAdd_finite ha hb]
  split
  · rw [units_packWord_zero]; omega
  · exact le_units_roundWord (by decide) hc (by rw [signed_natAbs]; simpa using h)

/-- A sum does not pass a representable upper bound. -/
theorem units_fAdd_le {a b c : Word} (ha : isFinite a = true) (hb : isFinite b = true) (hc : isNaN c = false)
    (h : units a + units b ≤ units c) : units (fAdd a b) ≤ units c := by
  rw [fAdd_finite ha hb]
  split
  · rw [units_packWord_zero]; omega
  · exact units_roundWord_le (by decide) hc (by rw [signed_natAbs]; simpa using h)

/-- A representable sum is exact. -/
theorem units_fAdd_exact {a b c : Word} (ha : isFinite a = true) (hb : isFinite b = true) (hc : isNaN c = false)
    (h : units a + units b = units c) : units (fAdd a b) = units c :=
  Int.le_antisymm (units_fAdd_le ha hb hc (Int.le_of_eq h)) (le_units_fAdd ha hb hc (Int.le_of_eq h.symm))

theorem isNaN_fSub_finite {a b : Word} (ha : isFinite a = true) (hb : isFinite b = true) : isNaN (fSub a b) = false :=
  isNaN_fAdd_finite ha (by simpa using hb)

theorem le_units_fSub {a b c : Word} (ha : isFinite a = true) (hb : isFinite b = true) (hc : isNaN c = false)
    (h : units c ≤ units a - units b) : units c ≤ units (fSub a b) :=
  le_units_fAdd ha (by simpa using hb) hc (by rw [units_fNeg]; omega)

theorem units_fSub_le {a b c : Word} (ha : isFinite a = true) (hb : isFinite b = true) (hc : isNaN c = false)
    (h : units a - units b ≤ units c) : units (fSub a b) ≤ units c :=
  units_fAdd_le ha (by simpa using hb) hc (by rw [units_fNeg]; omega)

theorem units_fSub_exact {a b c : Word} (ha : isFinite a = true) (hb : isFinite b = true) (hc : isNaN c = false)
    (h : units a - units b = units c) : units (fSub a b) = units c :=
  units_fAdd_exact ha (by simpa using hb) hc (by rw [units_fNeg]; omega)

theorem signed_product (a b : Word) :
    (if (signBit a != signBit b) = true then -(((units a).natAbs * (units b).natAbs : Nat) : Int)
      else (((units a).natAbs * (units b).natAbs : Nat) : Int)) = units a * units b := by
  rw [natAbs_units, natAbs_units]
  unfold units
  cases signBit a <;> cases signBit b <;> simp

/-- The product of two finite values is never a NaN. -/
theorem isNaN_fMul_finite {a b : Word} (ha : isFinite a = true) (hb : isFinite b = true) : isNaN (fMul a b) = false := by
  rw [fMul_finite ha hb]; exact isNaN_roundWord _ _ _

/-- A product does not pass a representable lower bound. -/
theorem le_units_fMul {a b c : Word} (ha : isFinite a = true) (hb : isFinite b = true) (hc : isNaN c = false)
    (h : units c * 2 ^ 149 ≤ units a * units b) : units c ≤ units (fMul a b) := by
  rw [fMul_finite ha hb]
  exact le_units_roundWord (by positivity) hc (by rw [signed_product]; exact_mod_cast h)

/-- A product does not pass a representable upper bound. -/
theorem units_fMul_le {a b c : Word} (ha : isFinite a = true) (hb : isFinite b = true) (hc : isNaN c = false)
    (h : units a * units b ≤ units c * 2 ^ 149) : units (fMul a b) ≤ units c := by
  rw [fMul_finite ha hb]
  exact units_roundWord_le (by positivity) hc (by rw [signed_product]; exact_mod_cast h)

theorem signed_dividend {a b : Word} (hb : 0 ≤ units b) (h0 : isZero b = false) :
    (if (signBit a != signBit b) = true then -((2 ^ 149 * (units a).natAbs : Nat) : Int)
      else ((2 ^ 149 * (units a).natAbs : Nat) : Int)) = 2 ^ 149 * units a := by
  have hpos : 0 < magUnits (magBits b) := by
    rcases Nat.eq_zero_or_pos (magUnits (magBits b)) with h | h
    · rw [magUnits_eq_zero_iff, ← isZero_iff] at h; simp [h] at h0
    · exact h
  have hs : signBit b = false := by
    by_contra h
    rw [Bool.not_eq_false] at h
    unfold units at hb
    rw [if_pos h] at hb; omega
  rw [natAbs_units, hs]
  unfold units
  cases signBit a <;> simp

/-- A quotient by a positive value does not pass a representable lower bound. -/
theorem le_units_fDiv {a b c : Word} (ha : isFinite a = true) (hb : isFinite b = true) (hc : isNaN c = false)
    (hpos : 0 < units b) (h : units c * units b ≤ 2 ^ 149 * units a) : units c ≤ units (fDiv a b) := by
  have h0 : isZero b = false := by rw [← Bool.not_eq_true, ← units_eq_zero_iff]; omega
  rw [fDiv_finite ha hb h0]
  refine le_units_roundWord (by omega) hc ?_
  rw [signed_dividend (by omega) h0, Int.natAbs_of_nonneg (by omega)]; exact h

/-- A quotient by a positive value does not pass a representable upper bound. -/
theorem units_fDiv_le {a b c : Word} (ha : isFinite a = true) (hb : isFinite b = true) (hc : isNaN c = false)
    (hpos : 0 < units b) (h : 2 ^ 149 * units a ≤ units c * units b) : units (fDiv a b) ≤ units c := by
  have h0 : isZero b = false := by rw [← Bool.not_eq_true, ← units_eq_zero_iff]; omega
  rw [fDiv_finite ha hb h0]
  refine units_roundWord_le (by omega) hc ?_
  rw [signed_dividend (by omega) h0, Int.natAbs_of_nonneg (by omega)]; exact h

/-! ### Results that are NaNs -/

/-- Every NaN that a sum answers is the canonical one (R10). -/
theorem fAdd_nan {a b : Word} (h : isNaN (fAdd a b) = true) : fAdd a b = canonicalNaN := by
  cases ha : isNaN a <;> cases hb : isNaN b <;> try (simp [fAdd, ha, hb]; done)
  cases hia : isInf a
  · cases hib : isInf b
    · exfalso
      have hfa := (finite_or_inf ha).resolve_right (by simp [hia])
      have hfb := (finite_or_inf hb).resolve_right (by simp [hib])
      rw [isNaN_fAdd_finite hfa hfb] at h
      exact absurd h (by simp)
    · simp [fAdd, ha, hb, hia, hib] at h
  · cases hs : (isInf b && signBit a != signBit b)
    · simp only [fAdd, ha, hb, hia, hs, Bool.or_self, Bool.false_eq_true, if_false, if_true] at h
    · simp [fAdd, ha, hb, hia, hs]

theorem fSub_nan {a b : Word} (h : isNaN (fSub a b) = true) : fSub a b = canonicalNaN := fAdd_nan h

@[simp] theorem isNaN_infinity (neg : Bool) : isNaN (infinity neg) = false := by cases neg <;> decide

/-- Every NaN that a product answers is the canonical one (R10). -/
theorem fMul_nan {a b : Word} (h : isNaN (fMul a b) = true) : fMul a b = canonicalNaN := by
  unfold fMul at h ⊢
  dsimp only at h ⊢
  split_ifs at h ⊢ <;> simp_all

/-- Every NaN that a quotient answers is the canonical one (R10). -/
theorem fDiv_nan {a b : Word} (h : isNaN (fDiv a b) = true) : fDiv a b = canonicalNaN := by
  unfold fDiv at h ⊢
  dsimp only at h ⊢
  split_ifs at h ⊢ <;> simp_all [isNaN_packWord_zero]

/-! ### Conversions (R12) -/

/-- `toF(n)` is exact up to 2^24. -/
theorem units_toF {n : Nat} (h : n ≤ 2 ^ 24) : isFinite (toF n) = true ∧ units (toF n) = 2 ^ 149 * n := by
  have key : ∃ c, c < infBits ∧ magUnits c = 2 ^ 149 * n := by
    rcases Nat.eq_zero_or_pos n with h0 | hpos
    · exact ⟨0, by decide, by simp [h0]⟩
    have hlo := Nat.log2_self_le (Nat.pos_iff_ne_zero.mp hpos)
    have hhi := Nat.lt_log2_self (n := n)
    have hk : n.log2 ≤ 24 := by
      by_contra hc
      have : 2 ^ 25 ≤ 2 ^ n.log2 := Nat.pow_le_pow_right (by omega) (by omega)
      omega
    generalize n.log2 = k at *
    rcases Nat.eq_or_lt_of_le hk with rfl | hk'
    · have hn : n = 2 ^ 24 := by omega
      refine ⟨2 ^ 23 * 150 + 2 ^ 23, by decide, ?_⟩
      rw [magUnits_significand (by omega) (.inr (by omega)), hn, ← pow_add, ← pow_add]
    · refine ⟨2 ^ 23 * (126 + k) + n * 2 ^ (23 - k), ?_, ?_⟩
      · have : n * 2 ^ (23 - k) < 2 ^ 24 := by
          calc n * 2 ^ (23 - k) < 2 ^ (k + 1) * 2 ^ (23 - k) := Nat.mul_lt_mul_of_pos_right hhi (by positivity)
            _ = 2 ^ 24 := by rw [← pow_add]; congr 1; omega
        have : infBits = 2 ^ 23 * 255 := by decide
        omega
      · have h1 : n * 2 ^ (23 - k) < 2 ^ 24 := by
          calc n * 2 ^ (23 - k) < 2 ^ (k + 1) * 2 ^ (23 - k) := Nat.mul_lt_mul_of_pos_right hhi (by positivity)
            _ = 2 ^ 24 := by rw [← pow_add]; congr 1; omega
        have h2 : 2 ^ 23 ≤ n * 2 ^ (23 - k) := by
          calc 2 ^ 23 = 2 ^ k * 2 ^ (23 - k) := by rw [← pow_add]; congr 1; omega
            _ ≤ n * 2 ^ (23 - k) := Nat.mul_le_mul_right _ hlo
        rw [magUnits_significand (Nat.le_of_lt h1) (.inr h2), Nat.mul_assoc, ← pow_add, Nat.mul_comm]
        congr 2; omega
  obtain ⟨c, hc, hu⟩ := key
  have e : roundMag (2 ^ 149 * n) 1 = c := by
    have := roundMag_exact (den := 1) (c := c) (by decide) (Nat.le_of_lt hc)
    rwa [Nat.mul_one, hu] at this
  constructor
  · rw [isFinite_iff, toF, magBits_roundWord, e]; exact hc
  · rw [toF, roundWord, e, units_packWord (Nat.lt_trans hc (by decide)), hu]; simp

theorem floorI_of_finite {x : Word} (h : isFinite x = true) : floorI x = some (units x / 2 ^ 149) := by
  simp [floorI, h]

/-! ### Comparisons (R11) -/

theorem fLt_iff {a b : Word} : fLt a b = true ↔ isNaN a = false ∧ isNaN b = false ∧ units a < units b := by
  simp [fLt, ordered, and_assoc]

theorem fGt_iff {a b : Word} : fGt a b = true ↔ isNaN a = false ∧ isNaN b = false ∧ units b < units a := by
  simp [fGt, ordered, and_assoc]

theorem fGe_iff {a b : Word} : fGe a b = true ↔ isNaN a = false ∧ isNaN b = false ∧ units b ≤ units a := by
  simp [fGe, ordered, and_assoc]

/-- The magnitude of a finite value is below that of an infinity. -/
theorem natAbs_units_lt_of_finite {w : Word} (h : isFinite w = true) : (units w).natAbs < magUnits infBits := by
  rw [natAbs_units, magUnits_lt_iff]; exact (isFinite_iff w).mp h

/-- A value that lies between two finite values is finite. -/
theorem finite_of_between {a x b : Word} (ha : isFinite a = true) (hb : isFinite b = true)
    (h1 : units a ≤ units x) (h2 : units x ≤ units b) : isFinite x = true := by
  have h3 := natAbs_units_lt_of_finite ha
  have h4 := natAbs_units_lt_of_finite hb
  rw [isFinite_iff, ← magUnits_lt_iff, ← natAbs_units]
  omega

end Sys2Proof.Machine
end

