-- ==== Sys2Proof/Laws/Memory.lean ====
section
/-! SUPPORT. The channel memories: what a read finds after a write or a zeroing, and that both keep the canonical form
(spec R52, R66). -/

namespace Sys2Proof.Machine

/-! ### The cells -/

/-- Every index of the list is above `i`. -/
def cellsAbove (i : Nat) (cs : List (Nat × Word)) : Prop := ∀ c ∈ cs, i < c.1

theorem cellsRiseFrom_weaken {j : Nat} {cs : List (Nat × Word)} (h : cellsRiseFrom (some j) cs = true) :
    cellsRiseFrom none cs = true := by
  cases cs with
  | nil => rfl
  | cons c cs => simp only [cellsRiseFrom, Bool.and_eq_true] at h ⊢; simp [h.2]

theorem cellsAbove_of_rise {cs : List (Nat × Word)} :
    ∀ {j : Nat}, cellsRiseFrom (some j) cs = true → cellsAbove j cs := by
  induction cs with
  | nil => intro j _ c hc; simp at hc
  | cons c cs ih =>
    intro j h x hx
    simp only [cellsRiseFrom, Bool.and_eq_true, decide_eq_true_eq] at h
    rcases List.mem_cons.mp hx with rfl | hx
    · exact h.1
    · exact Nat.lt_trans h.1 (ih h.2 x hx)

theorem cellsFind_none_of_above {i : Nat} {cs : List (Nat × Word)} (h : ∀ c ∈ cs, c.1 ≠ i) : cellsFind i cs = none := by
  induction cs with
  | nil => rfl
  | cons c cs ih =>
    have hc := h c (by simp)
    simp only [cellsFind]
    rw [if_neg (fun e => hc e.symm)]
    exact ih (fun x hx => h x (by simp [hx]))

theorem cellsFind_insert_self (i : Nat) (v : Word) (cs : List (Nat × Word)) : cellsFind i (cellsInsert i v cs) = some v := by
  induction cs with
  | nil => simp [cellsInsert, cellsFind]
  | cons c cs ih =>
    simp only [cellsInsert]
    split
    · simp [cellsFind]
    split
    · simp [cellsFind]
    · rename_i h
      simp [cellsFind, h, ih]

theorem cellsFind_insert_other {i j : Nat} (v : Word) (cs : List (Nat × Word)) (h : j ≠ i) :
    cellsFind j (cellsInsert i v cs) = cellsFind j cs := by
  induction cs with
  | nil => simp [cellsInsert, cellsFind, h]
  | cons c cs ih =>
    simp only [cellsInsert]
    split
    · simp [cellsFind, h]
    split
    · rename_i e
      simp [cellsFind, ← e, h]
    · simp only [cellsFind, ih]

theorem cellsFind_erase_self {i : Nat} {cs : List (Nat × Word)} (h : cellsRiseFrom none cs = true) :
    cellsFind i (cellsErase i cs) = none := by
  induction cs with
  | nil => rfl
  | cons c cs ih =>
    simp only [cellsRiseFrom, Bool.true_and] at h
    simp only [cellsErase]
    split
    · rename_i e
      exact cellsFind_none_of_above (fun x hx => by have := cellsAbove_of_rise h x hx; omega)
    · rename_i e
      simp [cellsFind, e, ih (cellsRiseFrom_weaken h)]

theorem cellsFind_erase_other {i j : Nat} (cs : List (Nat × Word)) (h : j ≠ i) :
    cellsFind j (cellsErase i cs) = cellsFind j cs := by
  induction cs with
  | nil => rfl
  | cons c cs ih =>
    simp only [cellsErase]
    split
    · rename_i e
      simp [cellsFind, ← e, h]
    · simp only [cellsFind, ih]

theorem cellsFind_filter {c i : Nat} (cs : List (Nat × Word)) :
    cellsFind i (cs.filter (fun x => decide (c ≤ x.1))) = if c ≤ i then cellsFind i cs else none := by
  induction cs with
  | nil => simp [cellsFind]
  | cons x cs ih =>
    simp only [List.filter_cons]
    split
    · rename_i hx
      simp only [decide_eq_true_eq] at hx
      simp only [cellsFind, ih]
      split
      · rename_i e; rw [if_pos (by omega)]
      · rfl
    · rename_i hx
      simp only [decide_eq_true_eq] at hx
      rw [ih]
      split
      · simp only [cellsFind]; rw [if_neg (by omega)]
      · rfl

theorem cellsRise_insert (i : Nat) (v : Word) {cs : List (Nat × Word)} :
    ∀ {lo : Option Nat}, cellsRiseFrom lo cs = true → (∀ k, lo = some k → k < i) →
      cellsRiseFrom lo (cellsInsert i v cs) = true := by
  induction cs with
  | nil =>
    intro lo _ hlo
    cases lo with
    | none => rfl
    | some k => simp [cellsInsert, cellsRiseFrom, hlo k rfl]
  | cons c cs ih =>
    intro lo h hlo
    simp only [cellsInsert]
    simp only [cellsRiseFrom, Bool.and_eq_true] at h
    split
    · rename_i hi
      simp only [cellsRiseFrom, Bool.and_eq_true, decide_eq_true_eq]
      refine ⟨?_, hi, h.2⟩
      cases lo with
      | none => rfl
      | some k => simpa using hlo k rfl
    split
    · rename_i hi
      subst hi
      simp only [cellsRiseFrom, Bool.and_eq_true]
      exact h
    · rename_i h1 h2
      simp only [cellsRiseFrom, Bool.and_eq_true]
      refine ⟨h.1, ih h.2 ?_⟩
      intro k hk
      simp only [Option.some.injEq] at hk
      omega

theorem cellsRise_mono {cs : List (Nat × Word)} {j k : Nat} (h : cellsRiseFrom (some k) cs = true) (hjk : j ≤ k) :
    cellsRiseFrom (some j) cs = true := by
  cases cs with
  | nil => rfl
  | cons c cs =>
    simp only [cellsRiseFrom, Bool.and_eq_true, decide_eq_true_eq] at h ⊢
    exact ⟨by omega, h.2⟩

theorem cellsRise_lower {cs : List (Nat × Word)} {lo : Option Nat} {k : Nat} (h : cellsRiseFrom (some k) cs = true)
    (hlo : ∀ j, lo = some j → j ≤ k) : cellsRiseFrom lo cs = true := by
  cases lo with
  | none => exact cellsRiseFrom_weaken h
  | some j => exact cellsRise_mono h (hlo j rfl)

/-- The bound that a rising list's first index meets. -/
theorem cellsRise_head {lo : Option Nat} {c : Nat × Word} {cs : List (Nat × Word)} (h : cellsRiseFrom lo (c :: cs) = true) :
    ∀ j, lo = some j → j < c.1 := by
  intro j hj
  subst hj
  simp only [cellsRiseFrom, Bool.and_eq_true, decide_eq_true_eq] at h
  exact h.1

theorem cellsRise_erase (i : Nat) {cs : List (Nat × Word)} :
    ∀ {lo : Option Nat}, cellsRiseFrom lo cs = true → cellsRiseFrom lo (cellsErase i cs) = true := by
  induction cs with
  | nil => intro lo h; exact h
  | cons c cs ih =>
    intro lo h
    have hhead := cellsRise_head h
    simp only [cellsRiseFrom, Bool.and_eq_true] at h
    simp only [cellsErase]
    split
    · exact cellsRise_lower h.2 (fun j hj => Nat.le_of_lt (hhead j hj))
    · simp only [cellsRiseFrom, Bool.and_eq_true]
      exact ⟨h.1, ih h.2⟩

theorem cellsRise_filter (p : Nat × Word → Bool) {cs : List (Nat × Word)} :
    ∀ {lo : Option Nat}, cellsRiseFrom lo cs = true → cellsRiseFrom lo (cs.filter p) = true := by
  induction cs with
  | nil => intro lo h; exact h
  | cons c cs ih =>
    intro lo h
    have hhead := cellsRise_head h
    simp only [cellsRiseFrom, Bool.and_eq_true] at h
    simp only [List.filter_cons]
    split
    · simp only [cellsRiseFrom, Bool.and_eq_true]
      exact ⟨h.1, ih h.2⟩
    · exact cellsRise_lower (ih h.2) (fun j hj => Nat.le_of_lt (hhead j hj))

theorem mem_cellsInsert {i : Nat} {v : Word} {cs : List (Nat × Word)} {x : Nat × Word} (h : x ∈ cellsInsert i v cs) :
    x = (i, v) ∨ x ∈ cs := by
  induction cs with
  | nil => left; simpa [cellsInsert] using h
  | cons c cs ih =>
    simp only [cellsInsert] at h
    split at h
    · rcases List.mem_cons.mp h with h | h
      · exact .inl h
      · exact .inr h
    split at h
    · rcases List.mem_cons.mp h with h | h
      · exact .inl h
      · exact .inr (List.mem_cons_of_mem _ h)
    · rcases List.mem_cons.mp h with h | h
      · exact .inr (by rw [h]; exact List.mem_cons_self)
      · rcases ih h with h | h
        · exact .inl h
        · exact .inr (List.mem_cons_of_mem _ h)

theorem mem_cellsErase {i : Nat} {cs : List (Nat × Word)} {x : Nat × Word} (h : x ∈ cellsErase i cs) : x ∈ cs := by
  induction cs with
  | nil => exact h
  | cons c cs ih =>
    simp only [cellsErase] at h
    split at h
    · exact List.mem_cons_of_mem _ h
    · rcases List.mem_cons.mp h with h | h
      · rw [h]; exact List.mem_cons_self
      · exact List.mem_cons_of_mem _ (ih h)

theorem cellsFind_mem {i : Nat} {w : Word} {cs : List (Nat × Word)} (h : cellsFind i cs = some w) : (i, w) ∈ cs := by
  induction cs with
  | nil => simp [cellsFind] at h
  | cons c cs ih =>
    simp only [cellsFind] at h
    split at h
    · rename_i e
      simp only [Option.some.injEq] at h
      subst e; subst h
      exact List.mem_cons_self
    · exact List.mem_cons_of_mem _ (ih h)

/-! ### The canonical form -/

theorem Memory.wf_iff (m : Memory) :
    m.wf = true ↔ cellsRiseFrom none m.cells = true ∧ ∀ c ∈ m.cells, c.1 < m.zeroedTo → c.2 ≠ zeroF := by
  simp only [Memory.wf, Bool.and_eq_true, List.all_eq_true, Bool.not_eq_true', Bool.and_eq_false_iff,
    decide_eq_false_iff_not, beq_eq_false_iff_ne]
  constructor
  · rintro ⟨h1, h2⟩
    exact ⟨h1, fun c hc hlt => (h2 c hc).resolve_left (fun h => h hlt)⟩
  · rintro ⟨h1, h2⟩
    exact ⟨h1, fun c hc => by by_cases h : c.1 < m.zeroedTo <;> simp [h, h2 c hc]⟩

@[simp] theorem Memory.wf_unspecified (n : Nat) : (Memory.unspecified n).wf = true := rfl

theorem Memory.wf_write {m : Memory} (h : m.wf = true) (i : Nat) (v : Word) : (m.write i v).wf = true := by
  rw [Memory.wf_iff] at h ⊢
  unfold Memory.write
  split
  · exact ⟨cellsRise_erase i h.1, fun c hc hlt => h.2 c (mem_cellsErase hc) hlt⟩
  · rename_i hv
    refine ⟨cellsRise_insert i v h.1 (fun k hk => by simp at hk), fun c hc hlt => ?_⟩
    rcases mem_cellsInsert hc with rfl | hc
    · exact fun e => hv ⟨hlt, e⟩
    · exact h.2 c hc hlt

theorem Memory.wf_zeroBelow {m : Memory} (h : m.wf = true) (c : Nat) : (m.zeroBelow c).wf = true := by
  rw [Memory.wf_iff] at h ⊢
  refine ⟨cellsRise_filter _ h.1, fun x hx hlt => ?_⟩
  simp only [Memory.zeroBelow, List.mem_filter, decide_eq_true_eq] at hx hlt
  exact h.2 x hx.1 (by omega)

/-! ### Reading -/

@[simp] theorem Memory.read_unspecified (n i : Nat) : (Memory.unspecified n).read i = Config.unspecifiedWord n i := by
  simp [Memory.read, Memory.unspecified, Memory.unlisted, cellsFind]

theorem Memory.read_write_self {m : Memory} (h : m.wf = true) (i : Nat) (v : Word) : (m.write i v).read i = v := by
  rw [Memory.wf_iff] at h
  unfold Memory.read Memory.write
  split
  · rename_i w hw
    split at hw
    · rw [cellsFind_erase_self h.1] at hw; simp at hw
    · rw [cellsFind_insert_self] at hw; simpa using hw.symm
  · rename_i hw
    split at hw
    · rename_i hz
      simp [Memory.unlisted, hz.1, hz.2]
    · rw [cellsFind_insert_self] at hw; simp at hw

theorem Memory.read_write_other (m : Memory) {i j : Nat} (v : Word) (h : j ≠ i) : (m.write i v).read j = m.read j := by
  have e : cellsFind j (m.write i v).cells = cellsFind j m.cells := by
    unfold Memory.write
    split
    · exact cellsFind_erase_other _ h
    · exact cellsFind_insert_other _ _ h
  simp only [Memory.read, e]
  rfl

theorem Memory.read_zeroBelow (m : Memory) (c i : Nat) : (m.zeroBelow c).read i = if i < c then zeroF else m.read i := by
  simp only [Memory.read, Memory.zeroBelow, cellsFind_filter, Memory.unlisted]
  by_cases h : i < c
  · simp [h, Nat.not_le.mpr h]
  · have h' : c ≤ i := by omega
    have h2 : i < max m.zeroedTo c ↔ i < m.zeroedTo := by omega
    simp [h, h', h2]

/-! ### MemRead and MemWrite -/

theorem memRead_ok {cap : Nat} {m : Memory} {i : Int} {w : Word} (h : memRead cap m i = .ok w) :
    0 ≤ i ∧ i < cap ∧ w = m.read i.toNat := by
  unfold memRead at h
  split at h
  · rename_i hi
    simp only [Except.ok.injEq] at h
    exact ⟨hi.1, hi.2, h.symm⟩
  · simp at h

theorem memRead_of_lt {cap : Nat} {m : Memory} {i : Nat} (h : i < cap) : memRead cap m (i : Int) = .ok (m.read i) := by
  unfold memRead; rw [if_pos (by omega)]; simp

theorem memWrite_ok {cap : Nat} {m m' : Memory} {i : Int} {v : Word} (h : memWrite cap m i v = .ok m') :
    0 ≤ i ∧ i < cap ∧ m' = m.write i.toNat v := by
  unfold memWrite at h
  split at h
  · rename_i hi
    simp only [Except.ok.injEq] at h
    exact ⟨hi.1, hi.2, h.symm⟩
  · simp at h

theorem memWrite_of_lt {cap : Nat} {m : Memory} {i : Nat} (v : Word) (h : i < cap) :
    memWrite cap m (i : Int) v = .ok (m.write i v) := by
  unfold memWrite; rw [if_pos (by omega)]; simp

end Sys2Proof.Machine
end

