-- ==== Sys2Proof/Laws/State.lean ====
section
/-! SUPPORT. One lemma per field per shared update of the state, each true by rfl. -/

namespace Sys2Proof.Machine

/-! ### clearFlags -/

@[simp] theorem clearFlags_prep (s : State) : (s.clearFlags).prep = s.prep := rfl
@[simp] theorem clearFlags_sr (s : State) : (s.clearFlags).sr = s.sr := rfl
@[simp] theorem clearFlags_cap (s : State) : (s.clearFlags).cap = s.cap := rfl
@[simp] theorem clearFlags_wh (s : State) : (s.clearFlags).wh = s.wh := rfl
@[simp] theorem clearFlags_phase (s : State) : (s.clearFlags).phase = s.phase := rfl
@[simp] theorem clearFlags_smooth (s : State) : (s.clearFlags).smooth = s.smooth := rfl
@[simp] theorem clearFlags_fbL (s : State) : (s.clearFlags).fbL = s.fbL := rfl
@[simp] theorem clearFlags_fbR (s : State) : (s.clearFlags).fbR = s.fbR := rfl
@[simp] theorem clearFlags_outL (s : State) : (s.clearFlags).outL = s.outL := rfl
@[simp] theorem clearFlags_outR (s : State) : (s.clearFlags).outR = s.outR := rfl
@[simp] theorem clearFlags_errUnprep (s : State) : (s.clearFlags).errUnprep = false := rfl
@[simp] theorem clearFlags_errCmd (s : State) : (s.clearFlags).errCmd = false := rfl
@[simp] theorem clearFlags_errCfg (s : State) : (s.clearFlags).errCfg = false := rfl
@[simp] theorem clearFlags_dsat (s : State) : (s.clearFlags).dsat = false := rfl
@[simp] theorem clearFlags_bufL (s : State) : (s.clearFlags).bufL = s.bufL := rfl
@[simp] theorem clearFlags_bufR (s : State) : (s.clearFlags).bufR = s.bufR := rfl
@[simp] theorem clearFlags_ports (s : State) : (s.clearFlags).ports = s.ports := rfl
@[simp] theorem clearFlags_inputs (s : State) : (s.clearFlags).inputs = s.inputs := rfl
@[simp] theorem clearFlags_faultRecord (s : State) : (s.clearFlags).faultRecord = s.faultRecord := rfl
@[simp] theorem clearFlags_drawsUsed (s : State) : (s.clearFlags).drawsUsed = s.drawsUsed := rfl

/-! ### clearDatapath -/

@[simp] theorem clearDatapath_prep (s : State) : (clearDatapath s).prep = s.prep := rfl
@[simp] theorem clearDatapath_sr (s : State) : (clearDatapath s).sr = s.sr := rfl
@[simp] theorem clearDatapath_cap (s : State) : (clearDatapath s).cap = s.cap := rfl
@[simp] theorem clearDatapath_wh (s : State) : (clearDatapath s).wh = 0#24 := rfl
@[simp] theorem clearDatapath_phase (s : State) : (clearDatapath s).phase = zeroF := rfl
@[simp] theorem clearDatapath_smooth (s : State) : (clearDatapath s).smooth = zeroF := rfl
@[simp] theorem clearDatapath_fbL (s : State) : (clearDatapath s).fbL = zeroF := rfl
@[simp] theorem clearDatapath_fbR (s : State) : (clearDatapath s).fbR = zeroF := rfl
@[simp] theorem clearDatapath_outL (s : State) : (clearDatapath s).outL = zeroF := rfl
@[simp] theorem clearDatapath_outR (s : State) : (clearDatapath s).outR = zeroF := rfl
@[simp] theorem clearDatapath_errUnprep (s : State) : (clearDatapath s).errUnprep = s.errUnprep := rfl
@[simp] theorem clearDatapath_errCmd (s : State) : (clearDatapath s).errCmd = s.errCmd := rfl
@[simp] theorem clearDatapath_errCfg (s : State) : (clearDatapath s).errCfg = s.errCfg := rfl
@[simp] theorem clearDatapath_dsat (s : State) : (clearDatapath s).dsat = s.dsat := rfl
@[simp] theorem clearDatapath_bufL (s : State) : (clearDatapath s).bufL = s.bufL := rfl
@[simp] theorem clearDatapath_bufR (s : State) : (clearDatapath s).bufR = s.bufR := rfl
@[simp] theorem clearDatapath_ports (s : State) : (clearDatapath s).ports = s.ports := rfl
@[simp] theorem clearDatapath_inputs (s : State) : (clearDatapath s).inputs = s.inputs := rfl
@[simp] theorem clearDatapath_faultRecord (s : State) : (clearDatapath s).faultRecord = s.faultRecord := rfl
@[simp] theorem clearDatapath_drawsUsed (s : State) : (clearDatapath s).drawsUsed = s.drawsUsed := rfl

/-! ### prepareValid -/

@[simp] theorem prepareValid_prep (c : Nat) (sr : Word) (s : State) : (prepareValid c sr s).prep = true := rfl
@[simp] theorem prepareValid_sr (c : Nat) (sr : Word) (s : State) : (prepareValid c sr s).sr = sr := rfl
@[simp] theorem prepareValid_cap (c : Nat) (sr : Word) (s : State) : (prepareValid c sr s).cap = BitVec.ofNat 25 c := rfl
@[simp] theorem prepareValid_wh (c : Nat) (sr : Word) (s : State) : (prepareValid c sr s).wh = 0#24 := rfl
@[simp] theorem prepareValid_phase (c : Nat) (sr : Word) (s : State) : (prepareValid c sr s).phase = zeroF := rfl
@[simp] theorem prepareValid_smooth (c : Nat) (sr : Word) (s : State) : (prepareValid c sr s).smooth = zeroF := rfl
@[simp] theorem prepareValid_fbL (c : Nat) (sr : Word) (s : State) : (prepareValid c sr s).fbL = zeroF := rfl
@[simp] theorem prepareValid_fbR (c : Nat) (sr : Word) (s : State) : (prepareValid c sr s).fbR = zeroF := rfl
@[simp] theorem prepareValid_outL (c : Nat) (sr : Word) (s : State) : (prepareValid c sr s).outL = zeroF := rfl
@[simp] theorem prepareValid_outR (c : Nat) (sr : Word) (s : State) : (prepareValid c sr s).outR = zeroF := rfl
@[simp] theorem prepareValid_errUnprep (c : Nat) (sr : Word) (s : State) : (prepareValid c sr s).errUnprep = s.errUnprep := rfl
@[simp] theorem prepareValid_errCmd (c : Nat) (sr : Word) (s : State) : (prepareValid c sr s).errCmd = s.errCmd := rfl
@[simp] theorem prepareValid_errCfg (c : Nat) (sr : Word) (s : State) : (prepareValid c sr s).errCfg = s.errCfg := rfl
@[simp] theorem prepareValid_dsat (c : Nat) (sr : Word) (s : State) : (prepareValid c sr s).dsat = s.dsat := rfl
@[simp] theorem prepareValid_bufL (c : Nat) (sr : Word) (s : State) : (prepareValid c sr s).bufL = s.bufL.zeroBelow c := rfl
@[simp] theorem prepareValid_bufR (c : Nat) (sr : Word) (s : State) : (prepareValid c sr s).bufR = s.bufR.zeroBelow c := rfl
@[simp] theorem prepareValid_ports (c : Nat) (sr : Word) (s : State) : (prepareValid c sr s).ports = s.ports := rfl
@[simp] theorem prepareValid_inputs (c : Nat) (sr : Word) (s : State) : (prepareValid c sr s).inputs = s.inputs := rfl
@[simp] theorem prepareValid_faultRecord (c : Nat) (sr : Word) (s : State) : (prepareValid c sr s).faultRecord = s.faultRecord := rfl
@[simp] theorem prepareValid_drawsUsed (c : Nat) (sr : Word) (s : State) : (prepareValid c sr s).drawsUsed = s.drawsUsed := rfl

/-! ### prepareInvalid -/

@[simp] theorem prepareInvalid_prep (s : State) : (prepareInvalid s).prep = false := rfl
@[simp] theorem prepareInvalid_sr (s : State) : (prepareInvalid s).sr = zeroF := rfl
@[simp] theorem prepareInvalid_cap (s : State) : (prepareInvalid s).cap = 0#25 := rfl
@[simp] theorem prepareInvalid_wh (s : State) : (prepareInvalid s).wh = 0#24 := rfl
@[simp] theorem prepareInvalid_phase (s : State) : (prepareInvalid s).phase = zeroF := rfl
@[simp] theorem prepareInvalid_smooth (s : State) : (prepareInvalid s).smooth = zeroF := rfl
@[simp] theorem prepareInvalid_fbL (s : State) : (prepareInvalid s).fbL = zeroF := rfl
@[simp] theorem prepareInvalid_fbR (s : State) : (prepareInvalid s).fbR = zeroF := rfl
@[simp] theorem prepareInvalid_outL (s : State) : (prepareInvalid s).outL = zeroF := rfl
@[simp] theorem prepareInvalid_outR (s : State) : (prepareInvalid s).outR = zeroF := rfl
@[simp] theorem prepareInvalid_errUnprep (s : State) : (prepareInvalid s).errUnprep = s.errUnprep := rfl
@[simp] theorem prepareInvalid_errCmd (s : State) : (prepareInvalid s).errCmd = s.errCmd := rfl
@[simp] theorem prepareInvalid_errCfg (s : State) : (prepareInvalid s).errCfg = s.errCfg := rfl
@[simp] theorem prepareInvalid_dsat (s : State) : (prepareInvalid s).dsat = s.dsat := rfl
@[simp] theorem prepareInvalid_bufL (s : State) : (prepareInvalid s).bufL = s.bufL := rfl
@[simp] theorem prepareInvalid_bufR (s : State) : (prepareInvalid s).bufR = s.bufR := rfl
@[simp] theorem prepareInvalid_ports (s : State) : (prepareInvalid s).ports = s.ports := rfl
@[simp] theorem prepareInvalid_inputs (s : State) : (prepareInvalid s).inputs = s.inputs := rfl
@[simp] theorem prepareInvalid_faultRecord (s : State) : (prepareInvalid s).faultRecord = s.faultRecord := rfl
@[simp] theorem prepareInvalid_drawsUsed (s : State) : (prepareInvalid s).drawsUsed = s.drawsUsed := rfl

/-! ### raiseUnprep -/

@[simp] theorem raiseUnprep_prep (s : State) : (raiseError .unprep s).prep = s.prep := rfl
@[simp] theorem raiseUnprep_sr (s : State) : (raiseError .unprep s).sr = s.sr := rfl
@[simp] theorem raiseUnprep_cap (s : State) : (raiseError .unprep s).cap = s.cap := rfl
@[simp] theorem raiseUnprep_wh (s : State) : (raiseError .unprep s).wh = s.wh := rfl
@[simp] theorem raiseUnprep_phase (s : State) : (raiseError .unprep s).phase = s.phase := rfl
@[simp] theorem raiseUnprep_smooth (s : State) : (raiseError .unprep s).smooth = s.smooth := rfl
@[simp] theorem raiseUnprep_fbL (s : State) : (raiseError .unprep s).fbL = s.fbL := rfl
@[simp] theorem raiseUnprep_fbR (s : State) : (raiseError .unprep s).fbR = s.fbR := rfl
@[simp] theorem raiseUnprep_outL (s : State) : (raiseError .unprep s).outL = s.outL := rfl
@[simp] theorem raiseUnprep_outR (s : State) : (raiseError .unprep s).outR = s.outR := rfl
@[simp] theorem raiseUnprep_errUnprep (s : State) : (raiseError .unprep s).errUnprep = true := rfl
@[simp] theorem raiseUnprep_errCmd (s : State) : (raiseError .unprep s).errCmd = s.errCmd := rfl
@[simp] theorem raiseUnprep_errCfg (s : State) : (raiseError .unprep s).errCfg = s.errCfg := rfl
@[simp] theorem raiseUnprep_dsat (s : State) : (raiseError .unprep s).dsat = s.dsat := rfl
@[simp] theorem raiseUnprep_bufL (s : State) : (raiseError .unprep s).bufL = s.bufL := rfl
@[simp] theorem raiseUnprep_bufR (s : State) : (raiseError .unprep s).bufR = s.bufR := rfl
@[simp] theorem raiseUnprep_ports (s : State) : (raiseError .unprep s).ports = s.ports := rfl
@[simp] theorem raiseUnprep_inputs (s : State) : (raiseError .unprep s).inputs = s.inputs := rfl
@[simp] theorem raiseUnprep_faultRecord (s : State) : (raiseError .unprep s).faultRecord = s.faultRecord ++ [.unprep] := rfl
@[simp] theorem raiseUnprep_drawsUsed (s : State) : (raiseError .unprep s).drawsUsed = s.drawsUsed := rfl

/-! ### raiseCmd -/

@[simp] theorem raiseCmd_prep (s : State) : (raiseError .cmd s).prep = s.prep := rfl
@[simp] theorem raiseCmd_sr (s : State) : (raiseError .cmd s).sr = s.sr := rfl
@[simp] theorem raiseCmd_cap (s : State) : (raiseError .cmd s).cap = s.cap := rfl
@[simp] theorem raiseCmd_wh (s : State) : (raiseError .cmd s).wh = s.wh := rfl
@[simp] theorem raiseCmd_phase (s : State) : (raiseError .cmd s).phase = s.phase := rfl
@[simp] theorem raiseCmd_smooth (s : State) : (raiseError .cmd s).smooth = s.smooth := rfl
@[simp] theorem raiseCmd_fbL (s : State) : (raiseError .cmd s).fbL = s.fbL := rfl
@[simp] theorem raiseCmd_fbR (s : State) : (raiseError .cmd s).fbR = s.fbR := rfl
@[simp] theorem raiseCmd_outL (s : State) : (raiseError .cmd s).outL = s.outL := rfl
@[simp] theorem raiseCmd_outR (s : State) : (raiseError .cmd s).outR = s.outR := rfl
@[simp] theorem raiseCmd_errUnprep (s : State) : (raiseError .cmd s).errUnprep = s.errUnprep := rfl
@[simp] theorem raiseCmd_errCmd (s : State) : (raiseError .cmd s).errCmd = true := rfl
@[simp] theorem raiseCmd_errCfg (s : State) : (raiseError .cmd s).errCfg = s.errCfg := rfl
@[simp] theorem raiseCmd_dsat (s : State) : (raiseError .cmd s).dsat = s.dsat := rfl
@[simp] theorem raiseCmd_bufL (s : State) : (raiseError .cmd s).bufL = s.bufL := rfl
@[simp] theorem raiseCmd_bufR (s : State) : (raiseError .cmd s).bufR = s.bufR := rfl
@[simp] theorem raiseCmd_ports (s : State) : (raiseError .cmd s).ports = s.ports := rfl
@[simp] theorem raiseCmd_inputs (s : State) : (raiseError .cmd s).inputs = s.inputs := rfl
@[simp] theorem raiseCmd_faultRecord (s : State) : (raiseError .cmd s).faultRecord = s.faultRecord ++ [.cmd] := rfl
@[simp] theorem raiseCmd_drawsUsed (s : State) : (raiseError .cmd s).drawsUsed = s.drawsUsed := rfl

/-! ### raiseCfg -/

@[simp] theorem raiseCfg_prep (s : State) : (raiseError .cfg s).prep = s.prep := rfl
@[simp] theorem raiseCfg_sr (s : State) : (raiseError .cfg s).sr = s.sr := rfl
@[simp] theorem raiseCfg_cap (s : State) : (raiseError .cfg s).cap = s.cap := rfl
@[simp] theorem raiseCfg_wh (s : State) : (raiseError .cfg s).wh = s.wh := rfl
@[simp] theorem raiseCfg_phase (s : State) : (raiseError .cfg s).phase = s.phase := rfl
@[simp] theorem raiseCfg_smooth (s : State) : (raiseError .cfg s).smooth = s.smooth := rfl
@[simp] theorem raiseCfg_fbL (s : State) : (raiseError .cfg s).fbL = s.fbL := rfl
@[simp] theorem raiseCfg_fbR (s : State) : (raiseError .cfg s).fbR = s.fbR := rfl
@[simp] theorem raiseCfg_outL (s : State) : (raiseError .cfg s).outL = s.outL := rfl
@[simp] theorem raiseCfg_outR (s : State) : (raiseError .cfg s).outR = s.outR := rfl
@[simp] theorem raiseCfg_errUnprep (s : State) : (raiseError .cfg s).errUnprep = s.errUnprep := rfl
@[simp] theorem raiseCfg_errCmd (s : State) : (raiseError .cfg s).errCmd = s.errCmd := rfl
@[simp] theorem raiseCfg_errCfg (s : State) : (raiseError .cfg s).errCfg = true := rfl
@[simp] theorem raiseCfg_dsat (s : State) : (raiseError .cfg s).dsat = s.dsat := rfl
@[simp] theorem raiseCfg_bufL (s : State) : (raiseError .cfg s).bufL = s.bufL := rfl
@[simp] theorem raiseCfg_bufR (s : State) : (raiseError .cfg s).bufR = s.bufR := rfl
@[simp] theorem raiseCfg_ports (s : State) : (raiseError .cfg s).ports = s.ports := rfl
@[simp] theorem raiseCfg_inputs (s : State) : (raiseError .cfg s).inputs = s.inputs := rfl
@[simp] theorem raiseCfg_faultRecord (s : State) : (raiseError .cfg s).faultRecord = s.faultRecord ++ [.cfg] := rfl
@[simp] theorem raiseCfg_drawsUsed (s : State) : (raiseError .cfg s).drawsUsed = s.drawsUsed := rfl

/-! ### hardReset -/

@[simp] theorem hardReset_prep (s : State) : (hardReset s).prep = false := rfl
@[simp] theorem hardReset_sr (s : State) : (hardReset s).sr = zeroF := rfl
@[simp] theorem hardReset_cap (s : State) : (hardReset s).cap = 0#25 := rfl
@[simp] theorem hardReset_wh (s : State) : (hardReset s).wh = 0#24 := rfl
@[simp] theorem hardReset_phase (s : State) : (hardReset s).phase = zeroF := rfl
@[simp] theorem hardReset_smooth (s : State) : (hardReset s).smooth = zeroF := rfl
@[simp] theorem hardReset_fbL (s : State) : (hardReset s).fbL = zeroF := rfl
@[simp] theorem hardReset_fbR (s : State) : (hardReset s).fbR = zeroF := rfl
@[simp] theorem hardReset_outL (s : State) : (hardReset s).outL = zeroF := rfl
@[simp] theorem hardReset_outR (s : State) : (hardReset s).outR = zeroF := rfl
@[simp] theorem hardReset_errUnprep (s : State) : (hardReset s).errUnprep = false := rfl
@[simp] theorem hardReset_errCmd (s : State) : (hardReset s).errCmd = false := rfl
@[simp] theorem hardReset_errCfg (s : State) : (hardReset s).errCfg = false := rfl
@[simp] theorem hardReset_dsat (s : State) : (hardReset s).dsat = false := rfl
@[simp] theorem hardReset_bufL (s : State) : (hardReset s).bufL = Memory.unspecified s.drawsUsed := rfl
@[simp] theorem hardReset_bufR (s : State) : (hardReset s).bufR = Memory.unspecified (s.drawsUsed + 1) := rfl
@[simp] theorem hardReset_ports (s : State) : (hardReset s).ports = s.ports := rfl
@[simp] theorem hardReset_inputs (s : State) : (hardReset s).inputs = s.inputs := rfl
@[simp] theorem hardReset_faultRecord (s : State) : (hardReset s).faultRecord = s.faultRecord := rfl
@[simp] theorem hardReset_drawsUsed (s : State) : (hardReset s).drawsUsed = s.drawsUsed + 2 := rfl

/-! ### takeInputs: only the ports and the inputs to come -/

@[simp] theorem takeInputs_prep (s : State) : (takeInputs s).prep = s.prep := by unfold takeInputs; split <;> rfl
@[simp] theorem takeInputs_sr (s : State) : (takeInputs s).sr = s.sr := by unfold takeInputs; split <;> rfl
@[simp] theorem takeInputs_cap (s : State) : (takeInputs s).cap = s.cap := by unfold takeInputs; split <;> rfl
@[simp] theorem takeInputs_wh (s : State) : (takeInputs s).wh = s.wh := by unfold takeInputs; split <;> rfl
@[simp] theorem takeInputs_phase (s : State) : (takeInputs s).phase = s.phase := by unfold takeInputs; split <;> rfl
@[simp] theorem takeInputs_smooth (s : State) : (takeInputs s).smooth = s.smooth := by unfold takeInputs; split <;> rfl
@[simp] theorem takeInputs_fbL (s : State) : (takeInputs s).fbL = s.fbL := by unfold takeInputs; split <;> rfl
@[simp] theorem takeInputs_fbR (s : State) : (takeInputs s).fbR = s.fbR := by unfold takeInputs; split <;> rfl
@[simp] theorem takeInputs_outL (s : State) : (takeInputs s).outL = s.outL := by unfold takeInputs; split <;> rfl
@[simp] theorem takeInputs_outR (s : State) : (takeInputs s).outR = s.outR := by unfold takeInputs; split <;> rfl
@[simp] theorem takeInputs_errUnprep (s : State) : (takeInputs s).errUnprep = s.errUnprep := by unfold takeInputs; split <;> rfl
@[simp] theorem takeInputs_errCmd (s : State) : (takeInputs s).errCmd = s.errCmd := by unfold takeInputs; split <;> rfl
@[simp] theorem takeInputs_errCfg (s : State) : (takeInputs s).errCfg = s.errCfg := by unfold takeInputs; split <;> rfl
@[simp] theorem takeInputs_dsat (s : State) : (takeInputs s).dsat = s.dsat := by unfold takeInputs; split <;> rfl
@[simp] theorem takeInputs_bufL (s : State) : (takeInputs s).bufL = s.bufL := by unfold takeInputs; split <;> rfl
@[simp] theorem takeInputs_bufR (s : State) : (takeInputs s).bufR = s.bufR := by unfold takeInputs; split <;> rfl
@[simp] theorem takeInputs_faultRecord (s : State) : (takeInputs s).faultRecord = s.faultRecord := by unfold takeInputs; split <;> rfl
@[simp] theorem takeInputs_drawsUsed (s : State) : (takeInputs s).drawsUsed = s.drawsUsed := by unfold takeInputs; split <;> rfl

theorem takeInputs_cons {s : State} {p : Ports} {rest : List Ports} (h : s.inputs = p :: rest) :
    takeInputs s = { s with ports := p, inputs := rest } := by simp [takeInputs, h]

theorem takeInputs_nil {s : State} (h : s.inputs = []) :
    takeInputs s = { s with ports := { s.ports with cmdValid := false } } := by simp [takeInputs, h]

end Sys2Proof.Machine
end

