-- ==== Sys2Proof/Laws/Commands.lean ====
section
/-! SUPPORT. What each command and each step can do, said once: later proofs cite these and do not unfold the machine. -/

namespace Sys2Proof.Machine

/-! ### PREPARE -/

/-- CAPCALC answers a capacity exactly on a valid configuration (R100). -/
theorem capCalc_eq_some {capMax c : Nat} {sr md : Word} (h : capCalc capMax sr md = some c) :
    isFinite sr = true ∧ fGt sr zeroF = true ∧ isFinite md = true ∧ fGt md zeroF = true ∧
      isFinite (fMul sr md) = true ∧ fGe (fMul sr md) oneF = true ∧
      ∃ n, floorI (fMul sr md) = some n ∧ n ≤ capMax ∧ c = n.toNat := by
  unfold capCalc at h
  dsimp only at h
  split at h
  · rename_i hv
    simp only [Bool.and_eq_true] at hv
    obtain ⟨⟨⟨⟨⟨h1, h2⟩, h3⟩, h4⟩, h5⟩, h6⟩ := hv
    refine ⟨h1, h2, h3, h4, h5, h6, ?_⟩
    cases hn : floorI (fMul sr md) with
    | none => simp [hn] at h
    | some n =>
      simp only [hn] at h
      split at h
      · rename_i hle
        exact ⟨n, rfl, hle, by simpa using h.symm⟩
      · simp at h
  · simp at h

/-- What PREPARE can do (R202). -/
theorem execPrepare_cases (s : State) :
    (∃ c, capCalc Config.hardware.capMaxOf s.ports.cfgSampleRate s.ports.cfgMaxDelay = some c ∧
      execPrepare s = .next (prepareValid c s.ports.cfgSampleRate s)) ∨
    (capCalc Config.hardware.capMaxOf s.ports.cfgSampleRate s.ports.cfgMaxDelay = none ∧
      execPrepare s = .next (raiseError .cfg (prepareInvalid s))) := by
  unfold execPrepare prepareOn PrepareOperands.ofPorts
  cases h : capCalc Config.hardware.capMaxOf s.ports.cfgSampleRate s.ports.cfgMaxDelay with
  | none => right; simp [h]
  | some c => left; simp [h]

/-! ### SAMPLE -/

/-- What one lane writes when it completes: the write value at the write head, then a read behind it. -/
theorem runLane_ok {cap wh : Nat} {m : Memory} {dry fb d gain mix : Word} {r : LaneResult}
    (h : runLane cap wh m dry fb d gain mix = .ok r) :
    wh < cap ∧ ∃ y, readDelayed cap (m.write wh (fAdd dry fb)) (readPos cap wh d) = .ok y ∧
      r = { buf := m.write wh (fAdd dry fb), fb := fMul y gain, out := xfade dry y mix } := by
  unfold runLane at h
  cases hw : bufWrite cap m wh (fbSum dry fb) with
  | error f => rw [hw] at h; cases h
  | ok m' =>
    obtain ⟨-, hlt, hm⟩ := memWrite_ok hw
    rw [Int.toNat_natCast] at hm
    rw [hw] at h
    dsimp only at h
    cases hy : readDelayed cap m' (readPos cap wh d) with
    | error f => rw [hy] at h; cases h
    | ok y =>
      rw [hy] at h
      subst hm
      exact ⟨Int.ofNat_lt.mp hlt, y, hy, (Except.ok.inj h).symm⟩

/-- What a read of the ring finds when it completes: two words in use, blended. -/
theorem readDelayed_ok {cap : Nat} {m : Memory} {p y : Word} (h : readDelayed cap m p = .ok y) :
    ∃ i0 i1 : Nat, ∃ frac, split cap p = some ((i0 : Int), (i1 : Int), frac) ∧ i0 < cap ∧ i1 < cap ∧
      y = lerp (m.read i0) (m.read i1) frac := by
  unfold readDelayed at h
  cases hs : split cap p with
  | none => simp [hs] at h
  | some t =>
    obtain ⟨i0, i1, frac⟩ := t
    simp only [hs] at h
    cases h0 : memRead cap m i0 with
    | error f => simp [h0] at h
    | ok x0 =>
      cases h1 : memRead cap m i1 with
      | error f => simp [h0, h1] at h
      | ok x1 =>
        simp only [h0, h1, Except.ok.injEq] at h
        obtain ⟨a0, b0, rfl⟩ := memRead_ok h0
        obtain ⟨a1, b1, rfl⟩ := memRead_ok h1
        exact ⟨i0.toNat, i1.toNat, frac, by rw [Int.toNat_of_nonneg a0, Int.toNat_of_nonneg a1], by omega, by omega, h.symm⟩

/-- What a frame of SAMPLE writes when it completes. -/
theorem sampleFrom_next {o : SampleOperands} {vL vR : Word} {s t : State} (h : sampleFrom o vL vR s = .next t) :
    ∃ l r, runLane s.cap.toNat s.wh.toNat s.bufL o.dryL s.fbL
        (toSamples s.cap.toNat (smoothStep s.smooth (mapDelay (delayRange o.mode) o.depth vL)) s.sr).1 o.feedback o.mix = .ok l ∧
      runLane s.cap.toNat s.wh.toNat s.bufR o.dryR s.fbR
        (toSamples s.cap.toNat (mapDelay (delayRange o.mode) o.depth vR) s.sr).1 o.feedback o.mix = .ok r ∧
      t = { s with
        smooth := smoothStep s.smooth (mapDelay (delayRange o.mode) o.depth vL)
        dsat := dsatAfter s.dsat
          (toSamples s.cap.toNat (smoothStep s.smooth (mapDelay (delayRange o.mode) o.depth vL)) s.sr).2
          (toSamples s.cap.toNat (mapDelay (delayRange o.mode) o.depth vR) s.sr).2
        bufL := l.buf, bufR := r.buf, fbL := l.fb, fbR := r.fb, outL := l.out, outR := r.out
        wh := headAdvance s.cap s.wh, phase := lfoAdvance s.phase o.rate s.sr } := by
  unfold sampleFrom at h
  dsimp only at h
  split at h
  · rename_i l r hl hr
    simp only [Host.Outcome.next.injEq] at h
    exact ⟨l, r, hl, hr, h.symm⟩
  · simp at h
  · simp at h

/-- What SAMPLE can do when it answers a next state (R203, R221). -/
theorem execSample_next {s t : State} (h : execSample s = .next t) :
    (s.prep = false ∧ t = raiseError .unprep s) ∨
    (s.prep = true ∧ sampleFrom (SampleOperands.ofPorts s.ports) (lfoValue Config.hardware.sine.fn s.phase)
      (lfoValue Config.hardware.sine.fn (phaseRight s.phase s.ports.pPhaseOffset)) s = .next t) := by
  unfold execSample sampleOn at h
  cases hp : s.prep with
  | false => left; simp [hp] at h; exact ⟨rfl, h.symm⟩
  | true => right; simp only [hp, if_true] at h; exact ⟨rfl, h⟩

/-! ### A step -/

/-- The command words of the opcode map, by the command they decode to (R72). -/
theorem decode_ok_iff {w : Byte} {i : Instr} : decode w = .ok i ↔ w = encode i := by
  have key : ∀ (w : Byte) (i : Instr), decode w = .ok i ↔ w = encode i := by
    intro w i; revert w; cases i <;> decide +kernel
  exact key w i

/-- What a step can do when it answers a next state: reset, idle, or one command. -/
theorem step_cases {s t : State} (h : step s = .next t) :
    let u := takeInputs s
    (u.ports.rst = true ∧ t = hardReset u) ∨
    (u.ports.rst = false ∧ u.ports.cmdValid = false ∧ t = u) ∨
    (u.ports.rst = false ∧ u.ports.cmdValid = true ∧
      ((∃ i, decode u.ports.cmd = .ok i ∧ exec i u = .next t) ∨
       (∃ r, decode u.ports.cmd = .error r ∧ t = raiseError .cmd u))) := by
  unfold step at h
  intro u
  change instant u = _ at h
  clear_value u
  unfold instant at h
  cases hr : u.ports.rst with
  | true => left; rw [if_pos hr] at h; exact ⟨rfl, (Host.Outcome.next.inj h).symm⟩
  | false =>
    right
    rw [if_neg (by simp [hr]), show u.outputs.cmdReady = true by simp [State.outputs, hr], Bool.and_true] at h
    cases hv : u.ports.cmdValid with
    | false => left; rw [if_neg (by simp [hv])] at h; exact ⟨rfl, rfl, (Host.Outcome.next.inj h).symm⟩
    | true =>
      right
      rw [if_pos hv] at h
      refine ⟨rfl, rfl, ?_⟩
      unfold acceptCommand at h
      cases hd : decode u.ports.cmd with
      | ok i => rw [hd] at h; exact .inl ⟨i, rfl, h⟩
      | error r => rw [hd] at h; exact .inr ⟨r, rfl, (Host.Outcome.next.inj h).symm⟩

end Sys2Proof.Machine
end

