-- ==== Sys2Proof/Laws/PerInstr.lean ====
section
/-! SUPPORT. Facts about every command as syntax, one lemma per constructor. -/

namespace Sys2Proof.Laws.EncodedWordIsWellFormed

/-- The command's word is a word of the opcode map (R72): reserved bits zero, an assigned operation code. -/
def Statement (i : Instr) : Prop := (CommandWord.ofByte (encode i)).wellFormed = true

theorem nop : Statement .nop := by unfold Statement; decide
theorem prepare : Statement .prepare := by unfold Statement; decide
theorem sample : Statement .sample := by unfold Statement; decide
theorem clrerr : Statement .clrerr := by unfold Statement; decide

end Sys2Proof.Laws.EncodedWordIsWellFormed
end

