-- ==== Sys2Proof/Laws/Rounding.lean ====
section
/-! SUPPORT. Rounding is monotone: of two exact values, the larger rounds to the larger word (spec B3, B7, B9). -/

namespace Sys2Proof.Machine

theorem significand_unique {sh sh' n n' : Nat} (h : 2 ^ 23 * sh + n = 2 ^ 23 * sh' + n') (hn : n < 2 ^ 24) (hn' : n' < 2 ^ 24)
    (hs : sh = 0 ∨ 2 ^ 23 ≤ n) (hs' : sh' = 0 ∨ 2 ^ 23 ≤ n') : sh = sh' ∧ n = n' := by omega

theorem roundHalfEven_mono {n r r' step step' : Nat} (hp : 0 < step) (hp' : 0 < step') (h : r * step' ≤ r' * step) :
    roundHalfEven n r step ≤ roundHalfEven n r' step' := by
  unfold roundHalfEven
  split
  · rename_i h1
    rw [if_pos]
    rcases h1 with h1 | ⟨h1, h2⟩
    · left
      have h3 : step * step' < step * (2 * r') := by
        calc step * step' < 2 * r * step' := Nat.mul_lt_mul_of_pos_right h1 hp'
          _ = 2 * (r * step') := by ring
          _ ≤ 2 * (r' * step) := by omega
          _ = step * (2 * r') := by ring
      exact Nat.lt_of_mul_lt_mul_left h3
    · have h3 : step * step' ≤ step * (2 * r') := by
        calc step * step' = 2 * (r * step') := by rw [h1]; ring
          _ ≤ 2 * (r' * step) := by omega
          _ = step * (2 * r') := by ring
      have := Nat.le_of_mul_le_mul_left h3 hp
      omega
  · split <;> omega

/-- What `roundMag` rounds: a significand `n` with `sh` dropped bits and a remainder. -/
theorem roundMag_parts (num : Nat) {den : Nat} (hd : 0 < den) :
    ∃ sh n r, n < 2 ^ 24 ∧ (sh = 0 ∨ 2 ^ 23 ≤ n) ∧ r < den * 2 ^ sh ∧ num = n * (den * 2 ^ sh) + r ∧
      roundMag num den = min (2 ^ 23 * sh + roundHalfEven n r (den * 2 ^ sh)) infBits := by
  obtain ⟨hn, hsh⟩ := roundMag_floor num den
  refine ⟨dropBits (num / den), num / (den * 2 ^ dropBits (num / den)), num % (den * 2 ^ dropBits (num / den)), hn, hsh,
    Nat.mod_lt _ (by positivity), ?_, rfl⟩
  rw [Nat.mul_comm]; exact (Nat.div_add_mod _ _).symm

theorem roundMag_mono {num den num' den' : Nat} (hd : 0 < den) (hd' : 0 < den') (h : num * den' ≤ num' * den) :
    roundMag num den ≤ roundMag num' den' := by
  obtain ⟨sh, n, r, hn, hs, hr, e, er⟩ := roundMag_parts num hd
  obtain ⟨sh', n', r', hn', hs', hr', e', er'⟩ := roundMag_parts num' hd'
  rw [er, er']
  have hlo : magUnits (2 ^ 23 * sh + n) * den ≤ num := by
    rw [magUnits_significand (Nat.le_of_lt hn) hs, e, Nat.mul_assoc, Nat.mul_comm (2 ^ sh)]; omega
  have hhi : num' < magUnits (2 ^ 23 * sh' + (n' + 1)) * den' := by
    rw [magUnits_significand (by omega) (by omega), e', Nat.mul_assoc, Nat.mul_comm (2 ^ sh'), Nat.add_mul]; omega
  have hlt : magUnits (2 ^ 23 * sh + n) < magUnits (2 ^ 23 * sh' + (n' + 1)) := by
    have h1 : magUnits (2 ^ 23 * sh + n) * (den * den') < magUnits (2 ^ 23 * sh' + (n' + 1)) * (den * den') := by
      calc magUnits (2 ^ 23 * sh + n) * (den * den') = magUnits (2 ^ 23 * sh + n) * den * den' := by ring
        _ ≤ num * den' := Nat.mul_le_mul_right _ hlo
        _ ≤ num' * den := h
        _ < magUnits (2 ^ 23 * sh' + (n' + 1)) * den' * den := Nat.mul_lt_mul_of_pos_right hhi hd
        _ = magUnits (2 ^ 23 * sh' + (n' + 1)) * (den * den') := by ring
    exact Nat.lt_of_mul_lt_mul_right h1
  have hm := magUnits_lt_iff.mp hlt
  have hrle := roundHalfEven_le n r (den * 2 ^ sh)
  have hrge := le_roundHalfEven n' r' (den' * 2 ^ sh')
  rcases Nat.lt_or_ge (2 ^ 23 * sh + n) (2 ^ 23 * sh' + n') with hc | hc
  · exact Nat.le_min.mpr ⟨Nat.le_trans (Nat.min_le_left _ _) (by omega), Nat.min_le_right _ _⟩
  · obtain ⟨rfl, rfl⟩ := significand_unique (show 2 ^ 23 * sh + n = 2 ^ 23 * sh' + n' by omega) hn hn' hs hs'
    have hpos : 0 < 2 ^ sh := by positivity
    have hrr : r * (den' * 2 ^ sh) ≤ r' * (den * 2 ^ sh) := by
      have h1 : (n * (den * 2 ^ sh) + r) * den' ≤ (n * (den' * 2 ^ sh) + r') * den := by rw [← e, ← e']; exact h
      have h2 : n * (den * 2 ^ sh) * den' = n * (den' * 2 ^ sh) * den := by ring
      rw [Nat.add_mul, Nat.add_mul, h2] at h1
      calc r * (den' * 2 ^ sh) = r * den' * 2 ^ sh := by ring
        _ ≤ r' * den * 2 ^ sh := Nat.mul_le_mul_right _ (by omega)
        _ = r' * (den * 2 ^ sh) := by ring
    have := roundHalfEven_mono (n := n) (r := r) (r' := r') (by positivity) (by positivity) hrr
    exact Nat.le_min.mpr ⟨Nat.le_trans (Nat.min_le_left _ _) (by omega), Nat.min_le_right _ _⟩

/-- The signed exact value that `roundWord` rounds. -/
def signedNum (neg : Bool) (num : Nat) : Int := if neg then -(num : Int) else num

theorem units_roundWord (neg : Bool) (num den : Nat) :
    units (roundWord neg num den) = signedNum neg (magUnits (roundMag num den)) := by
  rw [roundWord, units_packWord (roundMag_lt num den)]; rfl

/-- Rounding is monotone on signed values. -/
theorem units_roundWord_mono {neg neg' : Bool} {num den num' den' : Nat} (hd : 0 < den) (hd' : 0 < den')
    (h : signedNum neg num * den' ≤ signedNum neg' num' * den) :
    units (roundWord neg num den) ≤ units (roundWord neg' num' den') := by
  rw [units_roundWord, units_roundWord]
  cases neg <;> cases neg' <;> simp only [signedNum, Bool.false_eq_true, if_false, if_true] at h ⊢
  · exact_mod_cast magUnits_le_iff.mpr (roundMag_mono hd hd' (by exact_mod_cast h))
  · have h1 : (0 : Int) ≤ num * den' := by positivity
    have h2 : (0 : Int) ≤ num' * den := by positivity
    rw [Int.neg_mul] at h
    have h3 : num * den' = 0 := by
      have : (num * den' : Int) = 0 := by omega
      exact_mod_cast this
    have h4 : num' * den = 0 := by
      have : (num' * den : Int) = 0 := by omega
      exact_mod_cast this
    have h5 : num = 0 := (Nat.mul_eq_zero.mp h3).resolve_right (by omega)
    have h6 : num' = 0 := (Nat.mul_eq_zero.mp h4).resolve_right (by omega)
    rw [h5, h6, roundMag_zero hd, roundMag_zero hd']; simp
  · have : (0 : Int) ≤ magUnits (roundMag num den) := by positivity
    have : (0 : Int) ≤ magUnits (roundMag num' den') := by positivity
    omega
  · have h1 : num' * den ≤ num * den' := by
      have : (num' * den : Int) ≤ num * den' := by rw [Int.neg_mul, Int.neg_mul] at h; omega
      exact_mod_cast this
    have := magUnits_le_iff.mpr (roundMag_mono hd' hd h1)
    omega

/-- The sum of two finite values as one rounding (an exact zero has a sign of its own, but the same value). -/
theorem units_fAdd_eq {a b : Word} (ha : isFinite a = true) (hb : isFinite b = true) :
    units (fAdd a b) = units (roundWord (decide (units a + units b < 0)) (units a + units b).natAbs 1) := by
  rw [fAdd_finite ha hb]
  split
  · rename_i h
    rw [h, units_packWord_zero]
    decide
  · rfl

theorem signedNum_natAbs (x : Int) : signedNum (decide (x < 0)) x.natAbs = x := by
  unfold signedNum; exact signed_natAbs x

/-- Sums of finite values are monotone in the exact sum. -/
theorem units_fAdd_mono {a b c d : Word} (ha : isFinite a = true) (hb : isFinite b = true) (hc : isFinite c = true)
    (hd : isFinite d = true) (h : units a + units b ≤ units c + units d) : units (fAdd a b) ≤ units (fAdd c d) := by
  rw [units_fAdd_eq ha hb, units_fAdd_eq hc hd]
  exact units_roundWord_mono (by decide) (by decide) (by rw [signedNum_natAbs, signedNum_natAbs]; simpa using h)

theorem signedNum_product (a b : Word) :
    signedNum (signBit a != signBit b) ((units a).natAbs * (units b).natAbs) = units a * units b := by
  unfold signedNum; exact signed_product a b

/-- Products of finite values are monotone in the exact product. -/
theorem units_fMul_mono {a b c d : Word} (ha : isFinite a = true) (hb : isFinite b = true) (hc : isFinite c = true)
    (hd : isFinite d = true) (h : units a * units b ≤ units c * units d) : units (fMul a b) ≤ units (fMul c d) := by
  rw [fMul_finite ha hb, fMul_finite hc hd]
  exact units_roundWord_mono (by positivity) (by positivity)
    (by rw [signedNum_product, signedNum_product]; exact Int.mul_le_mul_of_nonneg_right h (by positivity))

end Sys2Proof.Machine
end

