-- ==== Sys2Proof/Machine/Program.lean ====
section
/-! DEFINITION. Command programs (spec R83 to R85): the lines of the assembler syntax and what each drives on the input ports,
instant by instant (DESIGN CHOICE, safe, log entry 14). Programs are the host's notation; the core stores none (R64). -/

namespace Sys2Proof.Machine

/-- One `<port>=<value>` of a SET line: any input port but `cmd`, `cmd_valid` and `rst` (R83). -/
inductive PortSetting where
  | cfgSampleRate (v : Word)
  | cfgMaxDelay (v : Word)
  | pMix (v : Word)
  | pFeedback (v : Word)
  | pDepth (v : Word)
  | pRate (v : Word)
  | pPhaseOffset (v : Word)
  | pMode (v : Mode)
  | inL (v : Word)
  | inR (v : Word)
  deriving DecidableEq, Repr

/-- The level of `p_mode` for each mode (R76, R83). -/
def Mode.toPort : Mode → BitVec 1
  | .chorus  => 0#1
  | .flanger => 1#1

/-- Drive one port; the others keep their levels (R83). -/
def PortSetting.drive (x : PortSetting) (p : Ports) : Ports :=
  match x with
  | .cfgSampleRate v => { p with cfgSampleRate := v }
  | .cfgMaxDelay v   => { p with cfgMaxDelay := v }
  | .pMix v          => { p with pMix := v }
  | .pFeedback v     => { p with pFeedback := v }
  | .pDepth v        => { p with pDepth := v }
  | .pRate v         => { p with pRate := v }
  | .pPhaseOffset v  => { p with pPhaseOffset := v }
  | .pMode v         => { p with pMode := v.toPort }
  | .inL v           => { p with inL := v }
  | .inR v           => { p with inR := v }

/-- A line of a command program (R83). PREPARE and SAMPLE without operands are `raw 0x01` and `raw 0x02` (R85). -/
inductive Line where
  | nop
  | prepare (sr maxDelay : Word)
  | sample (l r : Word)
  | clrerr
  | raw (word : Byte)                       -- `.cmd 0x<hh>`
  | set (settings : List PortSetting)       -- `SET`
  | reset                                   -- `RESET`
  | process (frames : List (Word × Word))   -- `PROCESS n`, with `n` the number of frames (R84)
  deriving DecidableEq, Repr

/-- Levels that offer the command word `w`. -/
def Ports.offer (p : Ports) (w : Byte) : Ports := { p with rst := false, cmdValid := true, cmd := w }

/-- Levels that offer no command and leave `rst` at 0. -/
def Ports.quiet (p : Ports) : Ports := { p with rst := false, cmdValid := false }

/-- SAMPLE with operands (R85): drive `in_l` and `in_r`, then offer `0x02`. -/
def samplePorts (p : Ports) (l r : Word) : Ports := { p with inL := l, inR := r }.offer (encode .sample)

/-- PREPARE with operands (R85): drive the configuration ports, then offer `0x01`. -/
def preparePorts (p : Ports) (sr maxDelay : Word) : Ports :=
  { p with cfgSampleRate := sr, cfgMaxDelay := maxDelay }.offer (encode .prepare)

/-- The instants of PROCESS (R84): one SAMPLE a frame, the parameter ports held. -/
def processPorts (p : Ports) : List (Word × Word) → List Ports
  | [] => []
  | (l, r) :: frames => samplePorts p l r :: processPorts (samplePorts p l r) frames

/-- The instants a line drives, from the levels before it. SET and RESET issue no command (R83): SET is an instant at which
none is offered, RESET a pulse of `rst`. -/
def Line.instants (p : Ports) : Line → List Ports
  | .nop           => [p.offer (encode .nop)]
  | .prepare sr md => [preparePorts p sr md]
  | .sample l r    => [samplePorts p l r]
  | .clrerr        => [p.offer (encode .clrerr)]
  | .raw w         => [p.offer w]
  | .set xs        => [(xs.foldl (fun q x => x.drive q) p).quiet]
  | .reset         => [{ p with rst := true, cmdValid := false }, p.quiet]
  | .process fs    => processPorts p fs

/-- The last levels of a list of instants, or those before it when it is empty. -/
def lastLevels (p : Ports) : List Ports → Ports
  | [] => p
  | q :: rest => lastLevels q rest

/-- The instants of a program, line by line, from the levels before it. -/
def programInstants (p : Ports) : List Line → List Ports
  | [] => []
  | line :: rest => line.instants p ++ programInstants (lastLevels p (line.instants p)) rest

end Sys2Proof.Machine
end

