-- ==== Sys2Proof/Tests/Slice0.lean ====
section
/-! SUPPORT. Tests. Every expected value comes from the spec: the encoding of section 30, or the vector or program of section 95
that the docstring names. After them, one witness for the hypotheses of each obligation that has any. -/

namespace Sys2Proof.Tests

open Sys2Proof Sys2Proof.Machine

/-! ### Well-formed words: each check refuses an ill-formed word -/

/-- R71: `RSV = 00001` is refused, though `OP` is assigned (V6.4). -/
theorem test_wellFormed_refuses_reserved_bits :
    CommandWord.wellFormed { rsv := 0b00001#5, op := 0b010#3 } = false := by decide

/-- R72: `OP = 4` is refused, though `RSV` is zero. -/
theorem test_wellFormed_refuses_reserved_op :
    CommandWord.wellFormed { rsv := 0b00000#5, op := 0b100#3 } = false := by decide

theorem test_wellFormed_accepts_four_words :
    ∀ op : BitVec 3, op.toNat < 4 → CommandWord.wellFormed { rsv := 0b00000#5, op := op } = true := by decide

/-! ### Decoding: words written bit by bit from R71 and R72 -/

theorem test_decode_nop : decodeTableWord 8 0b00000000 = some .nop := by decide
theorem test_decode_prepare : decodeTableWord 8 0b00000001 = some .prepare := by decide
theorem test_decode_sample : decodeTableWord 8 0b00000010 = some .sample := by decide
theorem test_decode_clrerr : decodeTableWord 8 0b00000011 = some .clrerr := by decide

/-- V6.3, V6.4, V6.5: 0x05, 0x0A and 0xFF are no commands. -/
theorem test_decode_illegal :
    decodeTableWord 8 0b00000101 = none ∧ decodeTableWord 8 0b00001010 = none ∧ decodeTableWord 8 0b11111111 = none := by decide

/-- The words of the four commands (section 30, opcode map). -/
theorem test_encode : [Instr.nop, .prepare, .sample, .clrerr].map encode = [0x00#8, 0x01#8, 0x02#8, 0x03#8] := by decide

/-! ### Helpers: small states, and the state an outcome goes on in -/

/-- The next state, if there is one. -/
def after (o : Host.Outcome State Fault Refusal) : Option State :=
  match o with
  | .next t => some t
  | _ => none

theorem next_of_after {o : Host.Outcome State Fault Refusal} {t : State} (h : after o = some t) : o = .next t := by
  cases o <;> simp_all [after]

/-- A memory whose first `n` words are `+0.0`. -/
def zeroed (n : Nat) : Memory := { draw := 0, zeroedTo := n, cells := [] }

/-- A Prepared core with sample rate `sr` and capacity `cap`, as a valid PREPARE leaves it. -/
def prepared (sr : Word) (cap : Nat) : State :=
  { State.reset with prep := true, sr := sr, cap := BitVec.ofNat 25 cap, bufL := zeroed cap, bufR := zeroed cap }

/-- Levels of a SAMPLE with depth `depth`, rate 1.0, no phase offset, no feedback and mix 1.0. -/
def frame (mode : BitVec 1) (depth l r : Word) : Ports :=
  { Ports.idle with pMix := oneF, pDepth := depth, pRate := oneF, pMode := mode, inL := l, inR := r }

/-- With `PHASE` and the offset at `+0.0` both LFO values are `+0.0` for every `lfo_sin` (S2, V2.1). -/
theorem execSample_at_phase_zero (s : State) (hp : s.prep = true) (h : s.phase = zeroF) (ho : s.ports.pPhaseOffset = zeroF) :
    execSample s = sampleFrom (SampleOperands.ofPorts s.ports) zeroF zeroF s := by
  have h0 : lfoValue Config.hardware.sine.fn zeroF = zeroF := by
    have hx : fMul twoPi zeroF = zeroF := by decide +kernel
    simp [lfoValue, hx, Config.hardware.sine.zero.1]
  have h1 : phaseRight zeroF zeroF = zeroF := by decide +kernel
  simp [execSample, sampleOn, hp, h, SampleOperands.ofPorts, ho, h0, h1]

/-! ### One step of each command -/

/-- V6.1. -/
theorem test_nop : after (step (State.reset.withFetchWord 8 0x00)) =
    some { State.reset with ports := { Ports.idle with cmdValid := true } } := by decide

/-- V1.1, R37: `sr = 48000.0`, `md = 2.0` gives `CAP = 96000` and `STATUS = 0x01`. -/
theorem test_prepare_valid :
    (after (prepareOn 131072 { State.reset with ports :=
      { Ports.idle with cfgSampleRate := 0x473B8000#32, cfgMaxDelay := twoF } })).map
        (fun t => (t.status, t.cap, t.sr, t.bufL.read 0, t.bufR.read 95999)) =
    some (0x01#8, 96000#25, 0x473B8000#32, 0x00000000#32, 0x00000000#32) := by decide +kernel

/-- V6.7: an invalid PREPARE on `STATUS = 0x11` leaves `0x18`, `CAP = 0` and `SR = +0.0`. -/
theorem test_prepare_invalid :
    (after (prepareOn 131072 { prepared 0x447A0000#32 2 with dsat := true, outL := oneF })).map
      (fun t => (t.status, t.cap, t.sr, t.outL)) = some (0x18#8, 0#25, 0x00000000#32, 0x00000000#32) := by decide +kernel

/-- V6.2: SAMPLE while Unprepared. -/
theorem test_sample_unprepared :
    (after (step (State.reset.withFetchWord 8 0x02))).map (fun t => (t.status, t.outL, t.cap, t.wh, t.faultRecord)) =
      some (0x02#8, 0x00000000#32, 0#25, 0#24, [.unprep]) := by decide

/-- Program P4, frame 0: the right delay 3.0 is clamped to 1.0 and sets `DSAT`; the left one is about 0.003 samples. -/
theorem test_sample_frame :
    (after (execSample { prepared 0x447A0000#32 2 with ports := frame 1#1 0x00000000#32 oneF oneF })).map
      (fun t => (t.status, t.outL, t.outR, t.wh, t.bufL.read 0, t.phase)) =
    some (0x11#8, 0x3F7F3B64#32, 0x00000000#32, 1#24, 0x3F800000#32, 0x3A83126F#32) := by
  rw [execSample_at_phase_zero _ rfl rfl rfl]
  decide +kernel

/-- V6.6: CLRERR on `STATUS = 0x1F` leaves `0x01`. -/
theorem test_clrerr :
    (after (step (State.withFetchWord
      { prepared oneF 1 with errUnprep := true, errCmd := true, errCfg := true, dsat := true } 8 0x03))).map State.status =
      some 0x01#8 := by decide

/-- V6.4: 0x0A is not SAMPLE. -/
theorem test_illegal : (after (step ((prepared oneF 1).withFetchWord 8 0x0A))).map State.status = some 0x05#8 := by decide

/-- V6.10. -/
theorem test_reset_pulse :
    (after (step { prepared oneF 1 with errCmd := true, outL := oneF, inputs := [{ Ports.idle with rst := true }] })).map
      (fun t => (t.status, t.cap, t.sr, t.outL)) = some (0x00#8, 0#25, 0x00000000#32, 0x00000000#32) := by decide

/-- R84, R85: the words that a program drives (P2: PREPARE, then SAMPLEs). -/
theorem test_program_words :
    (programInstants Ports.idle [.prepare oneF oneF, .process [(oneF, zeroF), (zeroF, zeroF)], .clrerr]).map
      (fun p => (p.cmd, p.inL)) = [(0x01#8, zeroF), (0x02#8, oneF), (0x02#8, zeroF), (0x03#8, zeroF)] := by decide

/-! ### The operations, by the vectors of section 95 -/

/-- V1.2 to V1.5, V1.7 to V1.10, V1.13, V1.14. -/
theorem test_capCalc :
    capCalc 131072 0x447A0000#32 0x3C23D70A#32 = some 10 ∧ capCalc 131072 0x42C80000#32 0x3D4CCCCD#32 = some 5 ∧
    capCalc 131072 0x447A0000#32 0x3BA3D70A#32 = some 5 ∧ capCalc 131072 0x447A0000#32 0x3B03126F#32 = some 2 ∧
    capCalc 131072 oneF oneF = some 1 ∧ capCalc 131072 oneF 0x3F000000#32 = none ∧ capCalc 131072 zeroF twoF = none ∧
    capCalc 131072 0xC73B8000#32 0xC0000000#32 = none ∧ capCalc 131072 canonicalNaN twoF = none ∧
    capCalc 131072 0x473B8000#32 0x40400000#32 = none ∧ capCalc 144000 0x473B8000#32 0x40400000#32 = some 144000 ∧
    capCalc 131072 0x4B800000#32 oneF = none ∧ capCalc (2 ^ 24) 0x4B800000#32 oneF = some (2 ^ 24) := by decide +kernel

/-- V1.15, V1.16. -/
theorem test_headAdvance : headAdvance 5#25 3#24 = 4#24 ∧ headAdvance 5#25 4#24 = 0#24 ∧ headAdvance 1#25 0#24 = 0#24 := by decide

/-- V1.17, V1.19, V1.20, V1.22 to V1.24, V1.26, V1.27. -/
theorem test_readPos_split :
    split 96000 (readPos 96000 0 0x3A83126F#32) = some (0, 1, zeroF) ∧
    split 5 (readPos 5 0 0x3F000000#32) = some (4, 0, 0x3F000000#32) ∧
    split 5 (readPos 5 3 0x3FE00000#32) = some (1, 2, 0x3E800000#32) ∧
    split 5 (readPos 5 0 0x80000000#32) = some (0, 1, zeroF) ∧
    split 5 (readPos 5 4 0x40800000#32) = some (0, 1, zeroF) ∧
    split 5 (readPos 5 0 0x40800000#32) = some (1, 2, zeroF) ∧
    split 1 (readPos 1 0 zeroF) = some (0, 0, zeroF) ∧
    readPos 96000 95999 0x3E800000#32 = 0x47BB7F60#32 ∧
    split 96000 0x47BB7F60#32 = some (95998, 95999, 0x3F400000#32) := by decide +kernel

/-- V2.2 to V2.5: the argument of the sine. -/
theorem test_lfo_argument :
    [0x3E800000#32, 0x3F000000#32, 0x3F400000#32, 0x3E000000#32].map (fMul twoPi) =
      [0x3FC90FDB#32, 0x40490FDB#32, 0x4096CBE4#32, 0x3F490FDB#32] := by decide +kernel

/-- V2.9 to V2.14. -/
theorem test_lfoAdvance :
    fDiv 0x41A00000#32 0x473B8000#32 = 0x39DA740E#32 ∧ fDiv 0x3DCCCCCD#32 0x473B8000#32 = 0x360BCF65#32 ∧
    lfoAdvance 0x3F400000#32 0x41800000#32 0x42800000#32 = zeroF ∧
    lfoAdvance 0x3F000000#32 0x41800000#32 0x42800000#32 = 0x3F400000#32 ∧
    lfoAdvance 0x3F000000#32 0x42C80000#32 0x42800000#32 = 0x3F880000#32 ∧
    lfoAdvance zeroF 0xC1800000#32 0x42800000#32 = 0xBE800000#32 := by decide +kernel

/-- V2.15 to V2.17, V2.19. -/
theorem test_phaseRight :
    phaseRight 0x3E99999A#32 oneF = 0x3E999998#32 ∧ phaseRight 0x3F000000#32 0x3F000000#32 = zeroF ∧
    phaseRight 0x3F400000#32 0x3F000000#32 = 0x3E800000#32 ∧ phaseRight zeroF canonicalNaN = canonicalNaN := by decide +kernel

/-- V3.1 to V3.3, V3.6 to V3.9, V3.13 to V3.13b. -/
theorem test_mapDelay :
    mapDelay (delayRange .chorus) 0x3F000000#32 zeroF = 0x3C8F5C28#32 ∧
    mapDelay (delayRange .chorus) oneF oneF = 0x3CF5C28E#32 ∧
    mapDelay (delayRange .chorus) oneF 0xBF800000#32 = 0x3BA3D70A#32 ∧
    mapDelay (delayRange .chorus) oneF 0x3F3504F3#32 = 0x3CD7C48A#32 ∧
    mapDelay (delayRange .chorus) twoF 0xBF800000#32 = 0xBBF5C28E#32 ∧
    mapDelay (delayRange .chorus) twoF oneF = 0x3D2E147A#32 ∧
    mapDelay (delayRange .flanger) 0x3F000000#32 zeroF = 0x3B449BA6#32 ∧
    mapDelay (delayRange .flanger) 0x3F000000#32 0xBF800000#32 = 0x3B03126E#32 ∧
    mapDelay (delayRange .chorus) oneF canonicalNaN = canonicalNaN ∧
    mapDelay (delayRange .chorus) 0x7F800000#32 oneF = 0x7F800000#32 := by decide +kernel

/-- V3.14, V3.16 to V3.19. -/
theorem test_smoothStep :
    smoothStep zeroF 0x3C8F5C28#32 = 0x3792CCF6#32 ∧ smoothStep chMax 0x3BA3D70A#32 = 0x3CF58E21#32 ∧
    smoothStep zeroF 0x3A83126F#32 = 0x358637BE#32 ∧ smoothStep zeroF canonicalNaN = canonicalNaN ∧
    smoothStep 0x3BA3D70A#32 0x3BA3D70A#32 = 0x3BA3D70A#32 := by decide +kernel

/-- V3.21 to V3.24. -/
theorem test_seconds_to_samples :
    fMul chMax 0x473B8000#32 = toF 1440 ∧ fMul flMax 0x473B8000#32 = toF 240 ∧ fMul chMax 0x472C4400#32 = toF 1323 ∧
    fMul flMin 0x473B8000#32 = 0x42400001#32 := by decide +kernel

/-- V3.25 to V3.34. -/
theorem test_dclamp :
    dclamp 2 0x40400000#32 = (oneF, true) ∧ dclamp 5 canonicalNaN = (zeroF, true) ∧ dclamp 5 0xBF000000#32 = (zeroF, true) ∧
    dclamp 5 0x80000000#32 = (0x80000000#32, false) ∧ dclamp 5 0x7F800000#32 = (0x40800000#32, true) ∧
    dclamp 5 0xFF800000#32 = (zeroF, true) ∧ dclamp 5 0x40800000#32 = (0x40800000#32, false) ∧
    dclamp 5 0x40800001#32 = (0x40800000#32, true) ∧ dclamp 1 zeroF = (zeroF, false) ∧
    dclamp 1 0x3F000000#32 = (zeroF, true) := by decide +kernel

/-- V4.1, V4.3 to V4.7. -/
theorem test_lerp :
    lerp oneF twoF 0x3E800000#32 = 0x3FA00000#32 ∧ lerp 0xBF800000#32 oneF 0x3F400000#32 = 0x3F000000#32 ∧
    lerp oneF 0x7F800000#32 zeroF = canonicalNaN ∧ lerp 0x7F800000#32 0xFF800000#32 0x3F000000#32 = canonicalNaN ∧
    lerp 0x80000000#32 oneF zeroF = 0x00000000#32 ∧ lerp oneF 0x7F800000#32 0x3F000000#32 = 0x7F800000#32 ∧
    lerp canonicalNaN oneF 0x3F000000#32 = canonicalNaN ∧ lerp twoF twoF 0x3E99999A#32 = twoF ∧
    lerp 0xBEFACF2F#32 0xBEFACF2F#32 0x3EFDA9AB#32 = 0xBEFACF2F#32 := by decide +kernel

/-- V4.8: the read wraps to the impulse at index 0. -/
theorem test_read_wraps :
    readDelayed 5 ((zeroed 5).write 0 oneF) (readPos 5 0 0x3F000000#32) = .ok 0x3F000000#32 := by
  have hs : split 5 (readPos 5 0 0x3F000000#32) = some (4, 0, 0x3F000000#32) := by decide +kernel
  have h4 : memRead 5 ((zeroed 5).write 0 oneF) 4 = .ok zeroF := rfl
  have h0 : memRead 5 ((zeroed 5).write 0 oneF) 0 = .ok oneF := rfl
  have hl : lerp zeroF oneF 0x3F000000#32 = 0x3F000000#32 := by decide +kernel
  simp [readDelayed, hs, h4, h0, hl]

/-- V5.1 to V5.5, V5.8. -/
theorem test_feedback_mix :
    fbUpdate oneF 0x3F7AE148#32 = 0x3F7AE148#32 ∧ xfade oneF 0x3F000000#32 0x3E800000#32 = 0x3F600000#32 ∧
    xfade oneF zeroF zeroF = oneF ∧ xfade oneF 0x3F000000#32 oneF = 0x3F000000#32 ∧
    xfade 0x3F000000#32 oneF 0x3F000000#32 = 0x3F400000#32 ∧ xfade oneF 0x7F800000#32 zeroF = canonicalNaN ∧
    fbSum oneF 0x7F7FFFFF#32 = 0x7F7FFFFF#32 ∧ fbSum 0x7F7FFFFF#32 0x7F7FFFFF#32 = 0x7F800000#32 := by decide +kernel

/-- V5.6: the echoes of feedback 0.98. -/
theorem test_echoes :
    fMul 0x3F7AE148#32 0x3F7AE148#32 = 0x3F75DCC7#32 ∧ fMul 0x3F75DCC7#32 0x3F7AE148#32 = 0x3F70F1F7#32 ∧
    fMul 0x3F70F1F7#32 0x3F7AE148#32 = 0x3F6C2054#32 ∧ fMul 0x3F6C2054#32 0x3F7AE148#32 = 0x3F67675D#32 := by decide +kernel

/-- Log entry 15: the two corners where binary32 departs from a remark of R122 and from R147 (a). -/
theorem test_findings :
    phaseRight 0x3F7FFFFF#32 oneF = oneF ∧ smoothStep 0x7F7FFFFF#32 0xFF7FFFFF#32 = 0xFF800000#32 := by decide +kernel

/-! ### Witnesses: states and operands that meet the hypotheses of each obligation together -/

theorem witness_CommandWordsDecodeByTheOpcodeMap :
    (0x08#8 : Byte).extractLsb 7 3 ≠ 0#5 ∧ (0xFF#8 : Byte).extractLsb 7 3 ≠ 0#5 ∧
    ((0x04#8 : Byte).extractLsb 7 3 = 0#5 ∧ 4 ≤ ((0x04#8 : Byte).extractLsb 2 0).toNat) ∧
    ((0x07#8 : Byte).extractLsb 7 3 = 0#5 ∧ 4 ≤ ((0x07#8 : Byte).extractLsb 2 0).toNat) := by decide

theorem witness_DecodeAndEncodeAgree : decode 0x00#8 = .ok .nop ∧ decode 0x03#8 = .ok .clrerr := by decide

/-- A core with the levels `p` to come. -/
def facing (s : State) (p : Ports) : State := { s with inputs := [p] }

/-- Levels that offer the command word `w`. -/
def offering (w : Byte) : Ports := Ports.idle.offer w

theorem witness_StepRunsTheDecodedCommand :
    (facing State.reset (offering 0x02#8)).inputs = offering 0x02#8 :: [] ∧ (offering 0x02#8).rst = false ∧
    (offering 0x02#8).cmdValid = true ∧ decode (offering 0x02#8).cmd = .ok .sample := by decide

theorem witness_IllegalWordSetsErrCmdOnly :
    ∀ w ∈ [0x04#8, 0x08#8, 0xFF#8], (facing (prepared oneF 1) (offering w)).inputs = offering w :: [] ∧
      (offering w).rst = false ∧ (offering w).cmdValid = true ∧ 4 ≤ (offering w).cmd.toNat := by decide

/-- Levels with `rst` at 1 that offer a SAMPLE at the same instant. -/
def resetting : Ports := { offering 0x02#8 with rst := true }

/-- `rst` driven at this instant, and `rst` held with no input given. -/
theorem witness_ResetOverridesEveryCommand :
    (facing (prepared oneF 1) resetting).nextPorts.rst = true ∧
    (State.nextPorts { prepared oneF 1 with ports := resetting }).rst = true := by decide

theorem witness_IdleInstantHoldsTheState :
    ((facing (prepared oneF 1) Ports.idle).inputs = Ports.idle :: [] ∧ Ports.idle.rst = false ∧ Ports.idle.cmdValid = false) ∧
    ((prepared oneF 1).inputs = [] ∧ (prepared oneF 1).ports.rst = false) := by decide

theorem inv_prepared (p : Ports) (ps : List Ports) :
    State.Inv Config.hardware.capMaxOf { prepared oneF 1 with ports := p, inputs := ps } := by
  have hs : isFinite oneF = true ∧ fGt oneF zeroF = true ∧ 1 ≤ (1#25).toNat ∧ (0#24).toNat < (1#25).toNat := by decide
  have hr : (zeroed 1).ring (1#25).toNat = true := by decide
  exact ⟨fun _ => ⟨hs.1, hs.2.1, hs.2.2.1, Config.hardware.capMax.property.1, hs.2.2.2⟩, fun h => Bool.noConfusion h, hr, hr⟩

/-- A frame of a core of capacity 1: the Chorus delay of about 0.0175 samples is clamped to 0. -/
def oneWordFrame : Ports := (frame 0#1 zeroF oneF oneF).offer 0x02#8

theorem next_isSome {o : Host.Outcome State Fault Refusal} (h : (after o).isSome = true) : ∃ t, o = .next t := by
  cases o with
  | next t => exact ⟨t, rfl⟩
  | fault f => simp [after] at h
  | refused r => simp [after] at h

/-- With this SAMPLE the one-word core goes on, and its right delay is clamped. -/
theorem oneWordFrame_next : ∃ t, execSample { prepared oneF 1 with ports := oneWordFrame } = .next t ∧ t.dsat = true ∧
    t.prep = true := by
  rw [execSample_at_phase_zero _ rfl rfl rfl]
  have h : (after (sampleFrom (SampleOperands.ofPorts oneWordFrame) zeroF zeroF
      { prepared oneF 1 with ports := oneWordFrame })).map (fun t => (t.dsat, t.prep)) = some (true, true) := by decide +kernel
  obtain ⟨t, ht, hd⟩ := Option.map_eq_some_iff.mp h
  exact ⟨t, next_of_after ht, congrArg Prod.fst hd, congrArg Prod.snd hd⟩

theorem step_oneWordFrame : step (facing (prepared oneF 1) oneWordFrame) =
    execSample { prepared oneF 1 with ports := oneWordFrame } := by
  have hd : decode oneWordFrame.cmd = .ok .sample := by decide
  have hr : oneWordFrame.rst = false := rfl
  have hv : oneWordFrame.cmdValid = true := rfl
  simp [step, takeInputs, facing, instant, State.outputs, acceptCommand, exec, hd, hr, hv, prepared, State.reset]

theorem witness_EveryStepKeepsThePreparedInvariant :
    ∃ s t : State, s.Inv Config.hardware.capMaxOf ∧ s.prep = true ∧ step s = .next t ∧ t.prep = true := by
  obtain ⟨t, ht, -, hp⟩ := oneWordFrame_next
  exact ⟨facing (prepared oneF 1) oneWordFrame, t, inv_prepared _ _, rfl, step_oneWordFrame.trans ht, hp⟩

theorem witness_EveryStepCompletesInsideTheRing :
    ∃ s : State, s.Inv Config.hardware.capMaxOf ∧ s.prep = true ∧ s.nextPorts.accepts 0x02#8 = true :=
  ⟨facing (prepared oneF 1) oneWordFrame, inv_prepared _ _, rfl, by decide⟩

theorem witness_EveryStepKeepsNaNsCanonical :
    ∃ s t : State, s.nanCanonical = true ∧ isNaN s.phase = true ∧ step s = .next t :=
  ⟨{ prepared oneF 1 with phase := canonicalNaN }, _, by decide, by decide, rfl⟩

/-- A core offered a PREPARE with `sr = md = 1.0`, whose capacity 1 every `CAP_MAX` allows (V1.7). -/
def preparing (s : State) : State := { s with ports := { Ports.idle with cfgSampleRate := oneF, cfgMaxDelay := oneF } }

theorem valid_one : ConfigValid Config.hardware.capMaxOf oneF oneF 1 :=
  ⟨by decide, by decide, by decide, by decide, by decide +kernel, by decide +kernel, by decide +kernel,
    Config.hardware.capMax.property.1⟩

theorem witness_PrepareWithValidConfigurationResetsAndSizes :
    let s := preparing { prepared oneF 1 with errCmd := true, wh := 0#24, phase := oneF }
    ConfigValid Config.hardware.capMaxOf s.ports.cfgSampleRate s.ports.cfgMaxDelay 1 := valid_one

/-- `sr = 0.0` gives no capacity (V1.9). -/
theorem invalid_zero (c : Nat) (md : Word) : ¬ConfigValid Config.hardware.capMaxOf zeroF md c := fun h => by
  have h2 : fGt zeroF zeroF = true := h.2.1
  revert h2
  decide

theorem witness_PrepareWithInvalidConfigurationLeavesUnprepared :
    let s := { prepared oneF 1 with ports := { Ports.idle with cfgMaxDelay := twoF } }
    ∀ c, ¬ConfigValid Config.hardware.capMaxOf s.ports.cfgSampleRate s.ports.cfgMaxDelay c := fun c => invalid_zero c _

theorem capCalc_one : capCalc Config.hardware.capMaxOf oneF oneF = some 1 := by
  have hv : (isFinite oneF && fGt oneF zeroF && isFinite oneF && fGt oneF zeroF && isFinite (fMul oneF oneF) &&
    fGe (fMul oneF oneF) oneF) = true := by decide +kernel
  have hf : floorI (fMul oneF oneF) = some 1 := by decide +kernel
  have hc : (1 : Int) ≤ (Config.hardware.capMaxOf : Int) := by exact_mod_cast Config.hardware.capMax.property.1
  simp only [capCalc, hv, hf, if_pos hc, if_true]
  rfl

theorem prepare_one (s : State) : exec .prepare (preparing s) = .next (prepareValid 1 oneF (preparing s)) := by
  have h : capCalc Config.hardware.capMaxOf (preparing s).ports.cfgSampleRate (preparing s).ports.cfgMaxDelay = some 1 :=
    capCalc_one
  show execPrepare (preparing s) = _
  rcases execPrepare_cases (preparing s) with ⟨c, hc, he⟩ | ⟨hn, -⟩
  · rw [h] at hc
    cases hc
    exact he
  · rw [h] at hn
    cases hn

/-- Levels that offer a PREPARE with `sr = md = 1.0`. -/
def prepareOffer : Ports := (preparing State.reset).ports.offer 0x01#8

theorem step_preparing : step (facing State.reset prepareOffer) =
    .next (prepareValid 1 oneF { State.reset with ports := prepareOffer }) := by
  have hd : decode prepareOffer.cmd = .ok .prepare := by decide
  have hr : prepareOffer.rst = false := rfl
  have hv : prepareOffer.cmdValid = true := rfl
  have hc : capCalc Config.hardware.capMaxOf prepareOffer.cfgSampleRate prepareOffer.cfgMaxDelay = some 1 := capCalc_one
  have he := execPrepare_cases { State.reset with ports := prepareOffer }
  dsimp only at he
  rw [hc] at he
  rcases he with ⟨c, h1, h2⟩ | ⟨h1, -⟩
  · cases h1
    simp only [step, takeInputs, facing, instant, State.outputs, acceptCommand, exec, hd, hr, hv]
    exact h2
  · cases h1

theorem witness_PrepareIsIdempotent :
    ∃ s t : State, exec .prepare s = .next t ∧ t.prep = true := ⟨_, _, prepare_one State.reset, rfl⟩

theorem witness_SampleWhileUnpreparedSetsErrUnprepOnly : State.reset.prep = false := rfl

/-- An Unprepared core; capacity 1, and the largest capacity with the write head at its end. -/
theorem witness_SampleComputesOneStereoFrame :
    State.reset.prep = false ∧
    ∀ s ∈ [{ prepared oneF 1 with ports := oneWordFrame }, { prepared oneF (2 ^ 24) with wh := BitVec.ofNat 24 (2 ^ 24 - 1) }],
      s.prep = true ∧ s.wh.toNat < s.cap.toNat ∧ s.cap.toNat ≤ 2 ^ 24 ∧ s.bufL.wf = true ∧ s.bufR.wf = true := by decide

theorem witness_OnlyPrepareAndResetChangeTheConfiguration :
    ∃ s t : State, step s = .next t ∧ s.nextPorts.rst = false ∧ s.nextPorts.accepts 0x01#8 = false ∧ s.prep = true := by
  obtain ⟨t, ht, -, -⟩ := oneWordFrame_next
  exact ⟨facing (prepared oneF 1) oneWordFrame, t, step_oneWordFrame.trans ht, by decide, by decide, rfl⟩

/-- A step at a reset, at a PREPARE, at a NOP of a Prepared core and at a SAMPLE of an Unprepared one. -/
theorem witness_OutputsHoldBetweenFrames :
    (∃ s t : State, step s = .next t ∧ s.nextPorts.rst = true) ∧
    (∃ s t : State, step s = .next t ∧ s.nextPorts.accepts 0x01#8 = true) ∧
    (∃ s t : State, step s = .next t ∧ s.prep = true ∧ s.nextPorts.rst = false ∧ s.nextPorts.accepts 0x01#8 = false ∧
      (s.nextPorts.accepts 0x02#8 = true → s.prep = false)) ∧
    (∃ s t : State, step s = .next t ∧ s.nextPorts.accepts 0x02#8 = true ∧ s.nextPorts.rst = false ∧
      s.nextPorts.accepts 0x01#8 = false ∧ (s.nextPorts.accepts 0x02#8 = true → s.prep = false)) := by
  refine ⟨⟨facing (prepared oneF 1) resetting, _, rfl, rfl⟩, ⟨_, _, step_preparing, by decide⟩,
    ⟨facing (prepared oneF 1) (offering 0x00#8), _, rfl, by decide⟩, ⟨facing State.reset (offering 0x02#8), _, rfl, by decide⟩⟩

theorem witness_DatapathChangesOnlyAtFramesPreparesAndResets :
    (∃ s t : State, step s = .next t ∧ s.nextPorts.rst = true) ∧
    (∃ s t : State, step s = .next t ∧ s.nextPorts.accepts 0x01#8 = true) ∧
    (∃ s t : State, step s = .next t ∧ s.prep = true ∧ s.nextPorts.rst = false ∧ s.nextPorts.accepts 0x01#8 = false ∧
      (s.nextPorts.accepts 0x02#8 = true → s.prep = false)) :=
  ⟨witness_OutputsHoldBetweenFrames.1, witness_OutputsHoldBetweenFrames.2.1, witness_OutputsHoldBetweenFrames.2.2.1⟩

theorem witness_FlagsAreSticky :
    ∃ s t : State, step s = .next t ∧ s.nextPorts.rst = false ∧ s.nextPorts.accepts 0x03#8 = false ∧
      s.errUnprep = true ∧ s.errCmd = true ∧ s.errCfg = true ∧ s.dsat = true :=
  ⟨facing { prepared oneF 1 with errUnprep := true, errCmd := true, errCfg := true, dsat := true } (offering 0x00#8),
    _, rfl, by decide⟩

/-- Levels that offer a PREPARE with `sr = 0.0`. -/
theorem prepare_zero : ∃ t, step (facing State.reset (offering 0x01#8)) = .next t ∧ t.errCfg = true := by
  have hd : decode (offering 0x01#8).cmd = .ok .prepare := by decide
  have hr : (offering 0x01#8).rst = false := rfl
  have hv : (offering 0x01#8).cmdValid = true := rfl
  have he : step (facing State.reset (offering 0x01#8)) = execPrepare { State.reset with ports := offering 0x01#8 } := by
    simp only [step, takeInputs, facing, instant, State.outputs, acceptCommand, exec, hd, hr, hv]
    rfl
  rcases execPrepare_cases { State.reset with ports := offering 0x01#8 } with ⟨c, h1, -⟩ | ⟨-, h2⟩
  · have h0 : fGt zeroF zeroF = true := (capCalc_eq_some h1).2.1
    exact absurd h0 (by decide)
  · exact ⟨_, he.trans h2, rfl⟩

/-- Each flag goes from 0 to 1 in some step; that of `DSAT` is a SAMPLE whose right delay is clamped. -/
theorem witness_EachFlagIsSetByItsOwnEventOnly :
    (∃ s t : State, step s = .next t ∧ s.errUnprep = false ∧ t.errUnprep = true) ∧
    (∃ s t : State, step s = .next t ∧ s.errCmd = false ∧ t.errCmd = true) ∧
    (∃ s t : State, step s = .next t ∧ s.errCfg = false ∧ t.errCfg = true) ∧
    (∃ s t : State, step s = .next t ∧ s.dsat = false ∧ t.dsat = true) := by
  refine ⟨⟨facing State.reset (offering 0x02#8), _, rfl, rfl, rfl⟩,
    ⟨facing State.reset (offering 0x04#8), _, rfl, rfl, rfl⟩, ?_, ?_⟩
  · obtain ⟨t, ht, hc⟩ := prepare_zero
    exact ⟨_, t, ht, rfl, hc⟩
  · obtain ⟨t, ht, hd, -⟩ := oneWordFrame_next
    exact ⟨_, t, step_oneWordFrame.trans ht, rfl, hd⟩

theorem witness_FaultRecordOnlyGrows :
    ∃ s t : State, step s = .next t ∧ s.faultRecord = [.cfg] ∧ t.faultRecord = [.cfg, .cmd] :=
  ⟨facing { State.reset with faultRecord := [.cfg] } (offering 0xFF#8), _, rfl, rfl, rfl⟩

theorem witness_SampleIgnoresTheConfigurationPorts : ∃ s t : State, s.prep = true ∧ exec .sample s = .next t := by
  obtain ⟨t, ht, -⟩ := oneWordFrame_next
  exact ⟨_, t, rfl, ht⟩

/-- A second frame of the one-word core, with other inputs. -/
theorem otherFrame_next (l r : Word) (h : (l, r) ∈ [(oneF, twoF), (twoF, oneF)]) :
    ∃ t, execSample { prepared oneF 1 with ports := { oneWordFrame with inL := l, inR := r } } = .next t := by
  rw [execSample_at_phase_zero _ rfl rfl rfl]
  refine next_isSome ?_
  revert h
  simp only [List.mem_cons, List.not_mem_nil, or_false, Prod.mk.injEq]
  rintro (⟨rfl, rfl⟩ | ⟨rfl, rfl⟩) <;> decide +kernel

/-- Two frames that agree on the left lane and differ on the right input, and two that do the reverse. -/
theorem witness_LanesDoNotInfluenceEachOther :
    ∀ x ∈ [(oneF, twoF), (twoF, oneF)],
      let s := { prepared oneF 1 with ports := oneWordFrame }
      let s' := { prepared oneF 1 with ports := { oneWordFrame with inL := x.1, inR := x.2 } }
      ∃ t t' : State, exec .sample s = .next t ∧ exec .sample s' = .next t' ∧ s.prep = s'.prep ∧ s.sr = s'.sr ∧
        s.cap = s'.cap ∧ s.wh = s'.wh ∧ s.phase = s'.phase ∧ s.ports.pMix = s'.ports.pMix ∧
        s.ports.pFeedback = s'.ports.pFeedback ∧ s.ports.pDepth = s'.ports.pDepth ∧ s.ports.pRate = s'.ports.pRate ∧
        s.ports.pMode = s'.ports.pMode ∧
        (s.bufL = s'.bufL ∧ s.fbL = s'.fbL ∧ s.outL = s'.outL ∧ s.smooth = s'.smooth) ∧
        (s.bufR = s'.bufR ∧ s.fbR = s'.fbR ∧ s.outR = s'.outR ∧ s.ports.pPhaseOffset = s'.ports.pPhaseOffset) ∧
        (x = (oneF, twoF) → s.ports.inL = s'.ports.inL ∧ s.ports.inR ≠ s'.ports.inR) ∧
        (x = (twoF, oneF) → s.ports.inR = s'.ports.inR ∧ s.ports.inL ≠ s'.ports.inL) := by
  intro x hx
  obtain ⟨t, ht, -⟩ := oneWordFrame_next
  obtain ⟨t', ht'⟩ := otherFrame_next x.1 x.2 hx
  refine ⟨t, t', ht, ht', rfl, rfl, rfl, rfl, rfl, rfl, rfl, rfl, rfl, rfl, ⟨rfl, rfl, rfl, rfl⟩, ⟨rfl, rfl, rfl, rfl⟩, ?_, ?_⟩
  · rintro rfl
    exact ⟨rfl, by decide⟩
  · rintro rfl
    exact ⟨rfl, by decide⟩

/-- The last index in use, an index past it and a negative one. -/
theorem witness_MemoryReadsWhatWasWritten :
    ((zeroed 5).write 2 oneF).wf = true ∧ ((0 : Int) ≤ 4 ∧ (4 : Int) < (5 : Nat)) ∧ ((5 : Nat) : Int) ≤ 5 ∧ (-1 : Int) < 0 := by
  decide

theorem value_ne_zero {x : Word} (h : units x ≠ 0) : value x ≠ 0 := by
  have h2 : (2 : ℚ) ^ 149 ≠ 0 := by positivity
  exact div_ne_zero (Int.cast_ne_zero.mpr h) h2

theorem witness_ArithmeticIsCorrectlyRounded :
    isFinite (fNeg zeroF) = true ∧ isFinite oneF = true ∧ isFinite 0x40400000#32 = true ∧ value 0x40400000#32 ≠ 0 :=
  ⟨by decide, by decide, by decide, value_ne_zero (by decide)⟩

/-- For each clause, in order: an invalid sum, a NaN operand, infinite and zero operands of both signs, a product that is no NaN. -/
theorem witness_SpecialResultsFollowIEEE754 :
    isNaN (fAdd (infinity false) (infinity true)) = true ∧ isNaN canonicalNaN = true ∧
    (isInf (infinity true) = true ∧ isNaN (infinity true) = false ∧ isInf oneF = false ∧ isNaN oneF = false) ∧
    (isZero zeroF = true ∧ isZero (fNeg zeroF) = true ∧ isInf zeroF = false ∧ isNaN zeroF = false) ∧
    (isZero oneF = false ∧ isFinite oneF = true) ∧ isNaN (fMul 0x80000001#32 0x3F000000#32) = false ∧
    isNaN (fDiv 0x80000001#32 twoF) = false := by decide +kernel

theorem witness_ComparisonsOrderValues :
    isFinite oneF = true ∧ isFinite (fNeg zeroF) = true ∧ isNaN 0xFF800001#32 = true := by decide

theorem witness_ConversionsAreExact : 2 ^ 24 ≤ 2 ^ 24 ∧ isFinite 0xBF000000#32 = true := by decide

/-- The largest delay, and the smallest ring. -/
theorem witness_ReadPositionStaysInTheRing :
    (0 < 5 ∧ 5 ≤ 2 ^ 24 ∧ isNaN 0x40800000#32 = false ∧ fLt 0x40800000#32 zeroF = false ∧
      fGt 0x40800000#32 (toF (5 - 1)) = false) ∧
    (0 < 1 ∧ 1 ≤ 2 ^ 24 ∧ isNaN zeroF = false ∧ fLt zeroF zeroF = false ∧ fGt zeroF (toF (1 - 1)) = false) ∧
    (2 ^ 24 - 1 < 2 ^ 24 ∧ fGt 0x3A83126F#32 (toF (2 ^ 24 - 1)) = false) := by decide +kernel

theorem witness_IntegerDelayReadsTheWordThatManyFramesBack :
    (0 < 5 ∧ 5 ≤ 2 ^ 24 ∧ 4 < 5 ∧ 4 = 5 - 1) ∧ (2 ^ 24 - 1 < 2 ^ 24 ∧ 0 < 2 ^ 24) := by decide

/-- The wrap, the smallest ring and the largest. -/
theorem witness_WriteHeadAdvancesModuloTheCapacity :
    ((4#24).toNat < (5#25).toNat ∧ (5#25).toNat ≤ 2 ^ 24) ∧ ((0#24).toNat < (1#25).toNat ∧ (1#25).toNat ≤ 2 ^ 24) ∧
    ((16777215#24).toNat < (16777216#25).toNat ∧ (16777216#25).toNat ≤ 2 ^ 24) := by
  simp

/-- In the middle of the ring and at its end. -/
theorem witness_ZeroDelayReadsTheWordJustWritten :
    (2 < 5 ∧ 5 ≤ 2 ^ 24 ∧ (zeroed 5).wf = true ∧ isFinite oneF = true) ∧
    isFinite (((zeroed 5).write 2 oneF).read 3) = true ∧ isFinite (((zeroed 5).write 4 oneF).read 0) = true := by decide

theorem witness_PhaseStaysInTheUnitInterval :
    (inUnit 0x3F7FFFFF#32 = true ∧ inUnit (fDiv 0x41A00000#32 0x473B8000#32) = true) ∧
    (between 0x3DCCCCCD#32 0x41A00000#32 0x41A00000#32 = true ∧ between 0x3DCCCCCD#32 0x3DCCCCCD#32 0x41A00000#32 = true ∧
      fGt 0x41A00001#32 0x41A00000#32 = true) := by decide +kernel

theorem witness_RightPhaseStaysInTheClosedUnitInterval :
    inUnit 0x3F7FFFFF#32 = true ∧ between zeroF oneF oneF = true ∧ between zeroF zeroF oneF = true := by decide

theorem witness_RightPhaseStaysBelowOne : inUnit 0x3F7FFFFF#32 = true ∧ between zeroF oneF oneF = true := by decide

theorem witness_LfoValueIsASineOfThePhase :
    between zeroF zeroF oneF = true ∧ between zeroF oneF oneF = true ∧ isFinite (infinity true) = false := by decide

theorem witness_MapStaysInTheModeRange :
    between (fNeg oneF) (fNeg oneF) oneF = true ∧ between zeroF oneF oneF = true ∧ between (fNeg oneF) oneF oneF = true ∧
    value (fNeg oneF) * value oneF ≤ value oneF * value oneF := by
  have hu : units (fNeg oneF) = -units oneF := by decide
  have hv : value (fNeg oneF) = -value oneF := by simp [value, hu, neg_div]
  refine ⟨by decide, by decide, by decide, ?_⟩
  rw [hv]
  nlinarith [mul_self_nonneg (value oneF)]

/-- Both directions, and both at once. -/
theorem witness_SmootherNeverOvershootsAFiniteDifference :
    (isFinite chMax = true ∧ isFinite chMin = true ∧ isFinite (fSub chMax chMin) = true ∧ isFinite (fSub chMin chMax) = true) ∧
    fGe chMax chMin = true ∧ fGe zeroF (fNeg zeroF) = true ∧ fGe (fNeg zeroF) zeroF = true := by decide +kernel

theorem witness_SmootherNeverOvershootsAnyFiniteTarget :
    isFinite 0x7F7FFFFF#32 = true ∧ isFinite 0xFF7FFFFF#32 = true ∧ fGe 0x7F7FFFFF#32 0xFF7FFFFF#32 = true := by decide

theorem witness_ClampedDelayFitsTheRing :
    (1 ≤ 1 ∧ 1 ≤ 2 ^ 24 ∧ (dclamp 1 zeroF).2 = false) ∧ (dclamp 5 0x40800000#32).2 = false ∧ (dclamp 5 canonicalNaN).2 = true ∧
    1 ≤ 2 ^ 24 := by decide +kernel

/-- R148: 1441 words at 48 kHz. -/
theorem witness_DelayWithinTheRingIsNotClamped :
    1441 ≤ 2 ^ 24 ∧ isFinite chMax = true ∧ isFinite 0x473B8000#32 = true ∧ fGt 0x473B8000#32 zeroF = true ∧
    between zeroF chMax chMax = true ∧ fGe (toF (1441 - 1)) (fMul chMax 0x473B8000#32) = true := by decide +kernel

theorem witness_SplitIsExactAndInBounds :
    (5 ≤ 2 ^ 24 ∧ fGe 0x40900000#32 zeroF = true ∧ fLt 0x40900000#32 (toF 5) = true) ∧
    (fGe zeroF zeroF = true ∧ fLt zeroF (toF 1) = true) ∧
    (fGe 0x4B7FFFFF#32 zeroF = true ∧ fLt 0x4B7FFFFF#32 (toF (2 ^ 24)) = true) := by decide +kernel

/-- Finite words, a NaN result and two equal words. -/
theorem witness_InterpolationStaysBetweenTheWords :
    inUnit zeroF = true ∧ inUnit 0x3F7FFFFF#32 = true ∧ isNaN oneF = false ∧ isNaN (infinity false) = false ∧
    isNaN (lerp oneF (infinity false) zeroF) = true ∧ isNaN (lerp oneF twoF 0x3F7FFFFF#32) = false := by decide +kernel

theorem witness_CrossfadeEndPoints :
    isFinite (fNeg zeroF) = true ∧ isFinite oneF = true ∧ isFinite (infinity false) = false ∧ isNaN (infinity false) = false ∧
    isFinite canonicalNaN = false := by decide

/-- A one-word core whose ring holds 1.0, with silent input and feedback 1.0. -/
theorem witness_SilentInputNeverGrows :
    ∃ s t : State, s.Inv Config.hardware.capMaxOf ∧ s.prep = true ∧ isFinite oneF = true ∧
      isZero s.ports.inL = true ∧ isZero s.ports.inR = true ∧ withinMag oneF s.ports.pFeedback = true ∧
      withinMag oneF s.fbL = true ∧ withinMag oneF s.fbR = true ∧
      (∀ i, i < s.cap.toNat → withinMag oneF (s.bufL.read i) = true ∧ withinMag oneF (s.bufR.read i) = true) ∧
      exec .sample s = .next t := by
  let m : Memory := { draw := 0, zeroedTo := 1, cells := [(0, oneF)] }
  let s : State := { prepared oneF 1 with
    bufL := m, bufR := m, fbL := oneF, fbR := fNeg oneF, ports := { Ports.idle with pFeedback := oneF, pRate := oneF } }
  have hs : isFinite oneF = true ∧ fGt oneF zeroF = true ∧ 1 ≤ (1#25).toNat ∧ (0#24).toNat < (1#25).toNat := by decide
  have hr : m.ring (1#25).toNat = true := by decide
  have hinv : s.Inv Config.hardware.capMaxOf :=
    ⟨fun _ => ⟨hs.1, hs.2.1, hs.2.2.1, Config.hardware.capMax.property.1, hs.2.2.2⟩, fun h => Bool.noConfusion h, hr, hr⟩
  have hread : withinMag oneF (m.read 0) = true := by decide
  obtain ⟨t, ht⟩ : ∃ t, execSample s = .next t := by
    rw [execSample_at_phase_zero s rfl rfl rfl]
    exact next_isSome (by decide +kernel)
  refine ⟨s, t, hinv, rfl, by decide, rfl, rfl, by decide, by decide, by decide, fun i hi => ?_, ht⟩
  have h0 : i = 0 := Nat.lt_one_iff.mp hi
  subst h0
  exact ⟨hread, hread⟩

/-- Words of magnitude 1.0 as input, bound 64.0 and mix 2.0, which is outside its documented range, on the one-word core with
`SR = 48000.0`: the SAMPLE itself, and the step that runs it. -/
theorem witness_InRangeRunsStayBounded :
    ∃ s t : State, s.Inv Config.hardware.capMaxOf ∧ isFinite 0x42800000#32 = true ∧
      fGe 0x42800000#32 (fAdd oneF (fMul feedbackMax 0x42800000#32)) = true ∧ s.Bounded 0x42800000#32 ∧
      (s.prep = true ∧ fGt s.sr 0x41A00000#32 = true ∧ s.ports.inRange = true ∧ withinMag oneF s.ports.inL = true ∧
        withinMag oneF s.ports.inR = true ∧ exec .sample s = .next t) ∧
      (s.nextPorts.accepts 0x02#8 = true ∧ s.nextPorts.inRange = true ∧ withinMag oneF s.nextPorts.inL = true ∧
        withinMag oneF s.nextPorts.inR = true ∧ ∃ t', step s = .next t') := by
  let p : Ports := { oneWordFrame with pFeedback := feedbackMax, pMix := twoF }
  let s : State := { prepared 0x473B8000#32 1 with ports := p, inputs := [p] }
  have hs : isFinite 0x473B8000#32 = true ∧ fGt 0x473B8000#32 zeroF = true ∧ 1 ≤ (1#25).toNat ∧
    (0#24).toNat < (1#25).toNat := by decide
  have hr : (zeroed 1).ring (1#25).toNat = true := by decide
  have hinv : s.Inv Config.hardware.capMaxOf :=
    ⟨fun _ => ⟨hs.1, hs.2.1, hs.2.2.1, Config.hardware.capMax.property.1, hs.2.2.2⟩, fun h => Bool.noConfusion h, hr, hr⟩
  have hz : withinMag 0x42800000#32 ((zeroed 1).read 0) = true := by decide
  have hb : ∀ i, i < 1 → withinMag 0x42800000#32 ((zeroed 1).read i) = true := fun i hi => by
    rw [Nat.lt_one_iff.mp hi]
    exact hz
  obtain ⟨t, ht⟩ : ∃ t, execSample s = .next t := by
    rw [execSample_at_phase_zero s rfl rfl rfl]
    exact next_isSome (by decide +kernel)
  obtain ⟨t', ht'⟩ : ∃ t', execSample { s with inputs := [] } = .next t' := by
    rw [execSample_at_phase_zero { s with inputs := [] } rfl rfl rfl]
    exact next_isSome (by decide +kernel)
  have hd : decode p.cmd = .ok .sample := by decide
  have hp : p.rst = false ∧ p.cmdValid = true := ⟨rfl, rfl⟩
  have hstep : step s = execSample { s with inputs := [] } := by
    have hi : takeInputs s = { s with inputs := [] } := rfl
    have hc : s.ports = p := rfl
    simp only [step, hi, instant, State.outputs, acceptCommand, exec, hc, hd, hp.1, hp.2]
    rfl
  exact ⟨s, t, hinv, by decide, by decide +kernel,
    ⟨by decide, by decide, by decide +kernel, by decide +kernel, hb, hb⟩,
    ⟨rfl, by decide, by decide, by decide, by decide, ht⟩, ⟨by decide, by decide, by decide, by decide, t', hstep.trans ht'⟩⟩

theorem witness_PrepareEstablishesTheBounds :
    ∃ s t : State, fGe zeroF zeroF = true ∧ exec .prepare s = .next t ∧ t.prep = true :=
  ⟨_, _, by decide, prepare_one State.reset, rfl⟩

end Sys2Proof.Tests
end

