-- ==== Sys2Proof/Proofs/Scope.lean ====
section
/-! PROOFS. The scope rules of the arithmetic: the comparisons order values (R11), the conversions are exact (R12). -/

namespace Sys2Proof.Machine

/-! ### Values -/

theorem value_lt_value_iff {a b : Word} : value a < value b ↔ units a < units b := by
  rw [value, value, div_lt_div_iff_of_pos_right (by positivity), Int.cast_lt]

theorem value_le_value_iff {a b : Word} : value a ≤ value b ↔ units a ≤ units b := by
  rw [value, value, div_le_div_iff_of_pos_right (by positivity), Int.cast_le]

theorem floor_value (x : Word) : ⌊value x⌋ = units x / 2 ^ 149 := by
  have h := Rat.floor_intCast_div_natCast (units x) (2 ^ 149)
  rwa [Nat.cast_pow, Nat.cast_pow] at h

theorem value_toF {n : Nat} (h : n ≤ 2 ^ 24) : value (toF n) = n := by
  rw [value, (units_toF h).2]
  push_cast
  exact mul_div_cancel_left₀ _ (by positivity)

/-! ### Classes -/

theorem isNaN_iff_fields (w : Word) : isNaN w = true ↔ expField w = 255 ∧ fracField w ≠ 0 := by simp [isNaN]

theorem isFinite_iff_not_nan_not_inf (w : Word) : isFinite w = true ↔ isNaN w = false ∧ isInf w = false where
  mp h := ⟨isNaN_eq_false_of_finite h, isInf_eq_false_of_finite h⟩
  mpr h := (finite_or_inf h.1).resolve_right (by simp [h.2])

/-! ### Comparisons of finite words and infinities -/

theorem fLt_iff_value_lt {a b : Word} (ha : isFinite a = true) (hb : isFinite b = true) :
    fLt a b = true ↔ value a < value b := by
  simp [fLt_iff, isNaN_eq_false_of_finite ha, isNaN_eq_false_of_finite hb, value_lt_value_iff]

theorem fGt_iff_value_lt {a b : Word} (ha : isFinite a = true) (hb : isFinite b = true) :
    fGt a b = true ↔ value b < value a := by
  simp [fGt_iff, isNaN_eq_false_of_finite ha, isNaN_eq_false_of_finite hb, value_lt_value_iff]

theorem fGe_iff_value_le {a b : Word} (ha : isFinite a = true) (hb : isFinite b = true) :
    fGe a b = true ↔ value b ≤ value a := by
  simp [fGe_iff, isNaN_eq_false_of_finite ha, isNaN_eq_false_of_finite hb, value_le_value_iff]

theorem units_infinity (neg : Bool) :
    units (infinity neg) = if neg then -(magUnits infBits : Int) else (magUnits infBits : Int) :=
  units_packWord (by decide)

theorem fLt_infinity_of_finite {a : Word} (ha : isFinite a = true) : fLt a (infinity false) = true := by
  have hlt := natAbs_units_lt_of_finite ha
  refine fLt_iff.mpr ⟨isNaN_eq_false_of_finite ha, isNaN_infinity _, ?_⟩
  simp only [units_infinity, Bool.false_eq_true, if_false]
  omega

theorem fGt_infinity_of_finite {a : Word} (ha : isFinite a = true) : fGt a (infinity true) = true := by
  have hlt := natAbs_units_lt_of_finite ha
  refine fGt_iff.mpr ⟨isNaN_eq_false_of_finite ha, isNaN_infinity _, ?_⟩
  simp only [units_infinity, if_true]
  omega

theorem fGe_self {a : Word} (ha : isNaN a = false) : fGe a a = true := fGe_iff.mpr ⟨ha, ha, le_rfl⟩

theorem fLt_infinity_infinity : fLt (infinity true) (infinity false) = true := by
  have hpos : 0 < magUnits infBits := magUnits_zero ▸ magUnits_lt_iff.mpr (by decide)
  refine fLt_iff.mpr ⟨isNaN_infinity _, isNaN_infinity _, ?_⟩
  simp only [units_infinity, Bool.false_eq_true, if_false, if_true]
  omega

/-! ### Comparisons with a NaN -/

theorem ordered_of_nan {a b : Word} (h : isNaN a = true ∨ isNaN b = true) : ordered a b = false := by
  rcases h with h | h <;> simp [ordered, h]

theorem comparisons_of_nan {a b : Word} (h : isNaN a = true ∨ isNaN b = true) :
    fLt a b = false ∧ fGt a b = false ∧ fGe a b = false := by
  simp [fLt, fGt, fGe, ordered_of_nan h]

/-! ### The zeros -/

theorem comparisons_of_zeros :
    fLt (fNeg zeroF) zeroF = false ∧ fGt zeroF (fNeg zeroF) = false ∧ fGe (fNeg zeroF) zeroF = true := by decide

/-! ### The obligations -/

/-- Settles O33: on finite words each comparison is one of exact values, an infinity's magnitude is above every finite one, and a
NaN is ordered with nothing. -/
theorem comparisonsOrderValues : Obligations.ComparisonsOrderValues :=
  ⟨fun _ _ ha hb => ⟨fLt_iff_value_lt ha hb, fGt_iff_value_lt ha hb, fGe_iff_value_le ha hb⟩,
    fun _ ha => ⟨fLt_infinity_of_finite ha, fGt_infinity_of_finite ha⟩,
    ⟨fLt_infinity_infinity, fun neg => fGe_self (isNaN_infinity neg)⟩,
    fun _ _ => comparisons_of_nan,
    comparisons_of_zeros,
    fun a => ⟨isNaN_iff_fields a, isFinite_iff_not_nan_not_inf a⟩,
    fun _ _ => ⟨rfl, rfl⟩⟩

/-- Settles O34: an integer up to 2^24 has a significand that fits, and `floorI` divides the units by those of 1.0. -/
theorem conversionsAreExact : Obligations.ConversionsAreExact :=
  ⟨fun _ hn => ⟨(units_toF hn).1, value_toF hn⟩,
    fun x hx => by rw [floorI_of_finite hx, floor_value]⟩

end Sys2Proof.Machine
end

/-! PROOFS. The invariant of R39: the two rings, the write head and the configuration under each thing a step can do. -/

namespace Sys2Proof.Machine

/-! ### The rings -/

theorem Memory.ring_iff (m : Memory) (cap : Nat) :
    m.ring cap = true ↔ m.wf = true ∧ cap ≤ m.zeroedTo ∧ ∀ c ∈ m.cells, c.1 < m.zeroedTo := by
  simp [Memory.ring, and_assoc]

@[simp] theorem Memory.ring_unspecified (n : Nat) : (Memory.unspecified n).ring 0 = true := rfl

theorem Memory.ring_mono {m : Memory} {cap cap' : Nat} (h : m.ring cap = true) (hle : cap' ≤ cap) : m.ring cap' = true := by
  obtain ⟨hwf, hcap, hcells⟩ := (m.ring_iff cap).mp h
  exact (m.ring_iff cap').mpr ⟨hwf, hle.trans hcap, hcells⟩

theorem Memory.mem_cells_write {m : Memory} {i : Nat} {v : Word} {c : Nat × Word} (h : c ∈ (m.write i v).cells) :
    c = (i, v) ∨ c ∈ m.cells := by
  unfold Memory.write at h
  dsimp only at h
  split at h
  · exact .inr (mem_cellsErase h)
  · exact mem_cellsInsert h

/-- A write inside the ring lists only an index that a PREPARE has zeroed. -/
theorem Memory.ring_write {m : Memory} {cap i : Nat} (h : m.ring cap = true) (hi : i < cap) (v : Word) :
    (m.write i v).ring cap = true := by
  obtain ⟨hwf, hcap, hcells⟩ := (m.ring_iff cap).mp h
  refine (Memory.ring_iff _ _).mpr ⟨Memory.wf_write hwf i v, hcap, fun c hc => ?_⟩
  rcases Memory.mem_cells_write hc with rfl | hc
  · exact hi.trans_le hcap
  · exact hcells c hc

/-- Zeroing below a new capacity makes a ring of that capacity, whatever the old one was. -/
theorem Memory.ring_zeroBelow {m : Memory} {cap : Nat} (h : m.ring cap = true) (c : Nat) :
    (m.zeroBelow c).ring c = true := by
  obtain ⟨hwf, -, hcells⟩ := (m.ring_iff cap).mp h
  refine (Memory.ring_iff _ _).mpr ⟨Memory.wf_zeroBelow hwf c, le_max_right _ _, fun x hx => ?_⟩
  exact lt_max_of_lt_left (hcells x (List.mem_filter.mp hx).1)

/-! ### The write head and the capacity -/

theorem headAdvance_lt {cap : BitVec 25} {wh : BitVec 24} (h : wh.toNat < cap.toNat) :
    (headAdvance cap wh).toNat < cap.toNat := by
  unfold headAdvance
  split
  · exact Nat.zero_lt_of_lt h
  · exact (Nat.mod_le _ _).trans_lt (by omega)

theorem capMaxOf_le (c : Config) : c.capMaxOf ≤ 2 ^ 24 := c.capMax.property.2

theorem one_le_of_floorI {x : Word} {n : Int} (hge : fGe x oneF = true) (hn : floorI x = some n) : 1 ≤ n := by
  have hone : units oneF = 2 ^ 149 := by decide +kernel
  obtain ⟨-, -, hle⟩ := fGe_iff.mp hge
  unfold floorI at hn
  split at hn
  · rw [← Option.some.inj hn, ← hone]
    exact (Int.le_ediv_iff_mul_le (by rw [hone]; positivity)).mpr (by rwa [one_mul])
  · cases hn

/-- CAPCALC answers a capacity from 1 to `CAP_MAX` only (R100). -/
theorem capCalc_bounds {capMax c : Nat} {sr md : Word} (h : capCalc capMax sr md = some c) : 1 ≤ c ∧ c ≤ capMax := by
  obtain ⟨-, -, -, -, -, hge, n, hn, hle, rfl⟩ := capCalc_eq_some h
  have hone := one_le_of_floorI hge hn
  omega

/-! ### What keeps the invariant -/

section

variable {capMax : Nat} {s t : State}

theorem State.Inv.of_unprepared (hp : s.prep = false) (hc : s.cap = 0#25) (hw : s.wh = 0#24)
    (hl : s.bufL.ring 0 = true) (hr : s.bufR.ring 0 = true) : s.Inv capMax := by
  refine ⟨fun h => ?_, fun _ => ⟨hc, hw⟩, ?_, ?_⟩
  · simp [hp] at h
  · rw [hc]; exact hl
  · rw [hc]; exact hr

theorem State.Inv.of_prepared (hp : s.prep = true) (hfin : isFinite s.sr = true) (hpos : fGt s.sr zeroF = true)
    (hcap : s.cap.toNat ≤ capMax) (hw : s.wh.toNat < s.cap.toNat)
    (hl : s.bufL.ring s.cap.toNat = true) (hr : s.bufR.ring s.cap.toNat = true) : s.Inv capMax :=
  ⟨fun _ => ⟨hfin, hpos, Nat.one_le_of_lt hw, hcap, hw⟩, fun h => by simp [hp] at h, hl, hr⟩

theorem inv_takeInputs (h : s.Inv capMax) : (takeInputs s).Inv capMax := by simpa [State.Inv] using h

theorem inv_raiseError (e : ErrorCause) (h : s.Inv capMax) : (raiseError e s).Inv capMax := by cases e <;> exact h

theorem inv_clearFlags (h : s.Inv capMax) : s.clearFlags.Inv capMax := h

theorem inv_hardReset (s : State) : (hardReset s).Inv capMax :=
  .of_unprepared rfl rfl rfl (Memory.ring_unspecified _) (Memory.ring_unspecified _)

theorem inv_prepareInvalid (h : s.Inv capMax) : (prepareInvalid s).Inv capMax := by
  obtain ⟨-, -, hl, hr⟩ := h
  exact .of_unprepared rfl rfl rfl (Memory.ring_mono hl (Nat.zero_le _)) (Memory.ring_mono hr (Nat.zero_le _))

theorem inv_prepareValid {c : Nat} {sr md : Word} (hmax : capMax ≤ 2 ^ 24) (hc : capCalc capMax sr md = some c)
    (h : s.Inv capMax) : (prepareValid c sr s).Inv capMax := by
  obtain ⟨hfin, hpos, -⟩ := capCalc_eq_some hc
  obtain ⟨hone, hle⟩ := capCalc_bounds hc
  obtain ⟨-, -, hl, hr⟩ := h
  have hcap : (prepareValid c sr s).cap.toNat = c := Nat.mod_eq_of_lt (by omega)
  refine .of_prepared rfl hfin hpos (hcap.trans_le hle) ?_ ?_ ?_
  · rw [hcap]; exact hone
  · rw [hcap]; exact Memory.ring_zeroBelow hl c
  · rw [hcap]; exact Memory.ring_zeroBelow hr c

/-- A frame of SAMPLE writes each ring at the write head and moves the head on inside the ring (R101, R105). -/
theorem inv_sampleFrom {o : SampleOperands} {vL vR : Word} (hp : s.prep = true) (h : s.Inv capMax)
    (ht : sampleFrom o vL vR s = .next t) : t.Inv capMax := by
  obtain ⟨hprep, -, hl, hr⟩ := h
  obtain ⟨hfin, hpos, -, hcap, hw⟩ := hprep hp
  obtain ⟨l, r, hlaneL, hlaneR, rfl⟩ := sampleFrom_next ht
  obtain ⟨-, -, -, rfl⟩ := runLane_ok hlaneL
  obtain ⟨-, -, -, rfl⟩ := runLane_ok hlaneR
  exact .of_prepared hp hfin hpos hcap (headAdvance_lt hw) (Memory.ring_write hl hw _) (Memory.ring_write hr hw _)

/-- R39: every command keeps the invariant. -/
theorem exec_keeps_inv {i : Instr} (h : s.Inv Config.hardware.capMaxOf) (ht : exec i s = .next t) :
    t.Inv Config.hardware.capMaxOf := by
  cases i with
  | nop => cases ht; exact h
  | prepare =>
    rcases execPrepare_cases s with ⟨c, hc, he⟩ | ⟨-, he⟩
    · cases he.symm.trans ht
      exact inv_prepareValid (capMaxOf_le _) hc h
    · cases he.symm.trans ht
      exact inv_raiseError .cfg (inv_prepareInvalid h)
  | sample =>
    rcases execSample_next ht with ⟨-, rfl⟩ | ⟨hp, hf⟩
    · exact inv_raiseError .unprep h
    · exact inv_sampleFrom hp h hf
  | clrerr => cases ht; exact inv_clearFlags h

theorem step_keeps_inv (h : s.Inv Config.hardware.capMaxOf) (ht : step s = .next t) :
    t.Inv Config.hardware.capMaxOf := by
  have hu := inv_takeInputs h
  rcases step_cases ht with ⟨-, rfl⟩ | ⟨-, -, rfl⟩ | ⟨-, -, ⟨i, -, he⟩ | ⟨r, -, rfl⟩⟩
  · exact inv_hardReset _
  · exact hu
  · exact exec_keeps_inv hu he
  · exact inv_raiseError .cmd hu

end

/-! ### The obligation -/

/-- Settles O10: a reset and an invalid PREPARE leave two rings of capacity 0, a valid PREPARE zeroes both up to the new
capacity, a SAMPLE writes at the write head, which stays inside, and nothing else touches what the invariant speaks of. -/
theorem everyStepKeepsThePreparedInvariant : Obligations.EveryStepKeepsThePreparedInvariant :=
  ⟨capMaxOf_le _, fun _ _ => step_keeps_inv⟩

end Sys2Proof.Machine

/-! PROOFS. The decoder on all 256 command words (R73): the reserved bits are tested first, then the operation code. -/

namespace Sys2Proof.Machine

/-! ### The words of the reserved space -/

theorem reservedZero_iff (c : CommandWord) : c.reservedZero = true ↔ c.rsv = 0#5 := beq_iff_eq

/-- The reserved bits decide alone: `OP` is not looked at. -/
theorem decode_of_rsv_ne_zero {w : Byte} (h : w.extractLsb 7 3 ≠ 0#5) :
    decode w = .error (.reservedBits (w.extractLsb 7 3)) :=
  if_neg (mt (reservedZero_iff (.ofByte w)).mp h)

/-- With the reserved bits zero, an `OP` past the four assigned codes falls to the last arm of the decoder. -/
theorem decode_of_reserved_op {w : Byte} (hrsv : w.extractLsb 7 3 = 0#5) (hop : 4 ≤ (w.extractLsb 2 0).toNat) :
    decode w = .error (.reservedOp (w.extractLsb 2 0)) := by
  obtain ⟨n, hn⟩ : ∃ n, (CommandWord.ofByte w).op.toNat = n + 4 := Nat.exists_eq_add_of_le' hop
  have hzero : (CommandWord.ofByte w).reservedZero = true := (reservedZero_iff _).mpr hrsv
  simp only [decode, hzero, if_true, hn]
  rfl

/-! ### The obligation -/

/-- Settles O1: the four words are the encodings of the commands, and every other word is rejected by the first of its two
fields that is reserved. -/
theorem commandWordsDecodeByTheOpcodeMap : Obligations.CommandWordsDecodeByTheOpcodeMap :=
  ⟨decode_ok_iff.mpr rfl, decode_ok_iff.mpr rfl, decode_ok_iff.mpr rfl, decode_ok_iff.mpr rfl,
    fun _ => ⟨decode_of_rsv_ne_zero, decode_of_reserved_op⟩⟩

end Sys2Proof.Machine

/-! PROOFS. The delay buffer's two index computations: the read position of R102 stays in the ring (R103), and the write head of
R105 goes round it. -/

namespace Sys2Proof.Machine

/-! ### Comparisons that answer false -/

theorem units_le_of_fLt_eq_false {a b : Word} (ha : isNaN a = false) (hb : isNaN b = false) (h : fLt a b = false) :
    units b ≤ units a := by
  simpa [fLt, ordered, ha, hb] using h

theorem units_le_of_fGt_eq_false {a b : Word} (ha : isNaN a = false) (hb : isNaN b = false) (h : fGt a b = false) :
    units a ≤ units b := by
  simpa [fGt, ordered, ha, hb] using h

theorem units_lt_of_fGe_eq_false {a b : Word} (ha : isNaN a = false) (hb : isNaN b = false) (h : fGe a b = false) :
    units a < units b := by
  simpa [fGe, ordered, ha, hb] using h

/-! ### The sign of a sum -/

/-- A sum that is not negative has its sign bit clear, the zeros included, unless both operands have it set. -/
theorem signBit_fAdd_eq_false {a b : Word} (ha : isFinite a = true) (hb : isFinite b = true)
    (hs : signBit a = false ∨ signBit b = false) (h : 0 ≤ units (fAdd a b)) : signBit (fAdd a b) = false := by
  have hsum : 0 ≤ units a + units b := by
    by_contra hneg
    have htiny : units 0x80000001#32 = -1 := by decide
    have hle := units_fAdd_le (c := 0x80000001#32) ha hb (by decide) (by omega)
    omega
  rw [fAdd_finite ha hb]
  split
  · rw [signBit_packWord (by decide)]
    rcases hs with hs | hs <;> simp [hs]
  · rw [signBit_roundWord, decide_eq_false (not_lt.mpr hsum)]

/-- A word with its sign bit clear is not negative. -/
theorem units_nonneg_of_signBit {w : Word} (h : signBit w = false) : 0 ≤ units w := by
  rw [units, if_neg (by simp [h])]
  exact Int.natCast_nonneg _

/-! ### The integers of the ring as words -/

@[simp] theorem signBit_toF (n : Nat) : signBit (toF n) = false := signBit_roundWord _ _ _

theorem units_zeroF : units zeroF = 0 := by decide

theorem units_toF_mono {m n : Nat} (hmn : m ≤ n) (hn : n ≤ 2 ^ 24) : units (toF m) ≤ units (toF n) := by
  rw [(units_toF (hmn.trans hn)).2, (units_toF hn).2]
  omega

theorem units_toF_pos {n : Nat} (hpos : 0 < n) (hn : n ≤ 2 ^ 24) : 0 < units (toF n) := by
  rw [(units_toF hn).2]
  omega

/-! ### The read position -/

section

variable {cap wh : Nat} {d p : Word}

/-- The difference of two values in [0, CAP] rounds to one in [-CAP, CAP]. -/
theorem units_fSub_toF_bounds (hwh : wh ≤ cap) (hcap : cap ≤ 2 ^ 24) (hd : isFinite d = true) (h0 : 0 ≤ units d)
    (hle : units d ≤ units (toF cap)) :
    -units (toF cap) ≤ units (fSub (toF wh) d) ∧ units (fSub (toF wh) d) ≤ units (toF cap) := by
  have hfw := (units_toF (hwh.trans hcap)).1
  have hnan := isNaN_eq_false_of_finite (units_toF hcap).1
  have hw0 := units_nonneg_of_signBit (signBit_toF wh)
  have hwc := units_toF_mono hwh hcap
  constructor
  · rw [← units_fNeg]
    exact le_units_fSub hfw hd (by rwa [isNaN_fNeg]) (by rw [units_fNeg]; omega)
  · exact units_fSub_le hfw hd hnan (by omega)

/-- The first wrap: a negative position in [-CAP, 0) moves into [0, CAP], and its zero is `+0.0`. -/
theorem fAdd_toF_bounds (hcap : cap ≤ 2 ^ 24) (hp : isFinite p = true) (hlo : -units (toF cap) ≤ units p)
    (hneg : units p < 0) : signBit (fAdd p (toF cap)) = false ∧ units (fAdd p (toF cap)) ≤ units (toF cap) := by
  have hfc := (units_toF hcap).1
  have hnonneg : units zeroF ≤ units (fAdd p (toF cap)) :=
    le_units_fAdd hp hfc (by decide) (by rw [units_zeroF]; omega)
  exact ⟨signBit_fAdd_eq_false hp hfc (.inr (signBit_toF cap)) (units_zeroF ▸ hnonneg),
    units_fAdd_le hp hfc (isNaN_eq_false_of_finite hfc) (by omega)⟩

/-- The second wrap: only a position equal to CAP is moved, and it becomes `+0.0`. -/
theorem fSub_toF_self (hcap : cap ≤ 2 ^ 24) (hs : signBit p = false) (hp : units p = units (toF cap)) :
    fSub p (toF cap) = zeroF := by
  have hfc := (units_toF hcap).1
  have hfp := finite_of_between hfc hfc hp.ge hp.le
  have hfn : isFinite (fNeg (toF cap)) = true := by rwa [isFinite_fNeg]
  have hsum : units p + units (fNeg (toF cap)) = 0 := by rw [units_fNeg]; omega
  rw [fSub, fAdd_finite hfp hfn, if_pos hsum, hs]
  rfl

/-- The position between the two wraps of READPOS (R102). -/
def wrapOnce (cap wh : Nat) (d : Word) : Word :=
  if fLt (fSub (toF wh) d) zeroF then fAdd (fSub (toF wh) d) (toF cap) else fSub (toF wh) d

theorem readPos_eq_wrapOnce (cap wh : Nat) (d : Word) :
    readPos cap wh d = if fGe (wrapOnce cap wh d) (toF cap) then fSub (wrapOnce cap wh d) (toF cap) else wrapOnce cap wh d :=
  rfl

theorem wrapOnce_bounds (hwh : wh ≤ cap) (hcap : cap ≤ 2 ^ 24) (hd : isFinite d = true) (h0 : 0 ≤ units d)
    (hle : units d ≤ units (toF cap)) :
    signBit (wrapOnce cap wh d) = false ∧ units (wrapOnce cap wh d) ≤ units (toF cap) := by
  have hfw := (units_toF (hwh.trans hcap)).1
  have hfc := (units_toF hcap).1
  obtain ⟨hlo, hhi⟩ := units_fSub_toF_bounds hwh hcap hd h0 hle
  have hfp : isFinite (fSub (toF wh) d) = true :=
    finite_of_between (by rwa [isFinite_fNeg]) hfc ((units_fNeg _).trans_le hlo) hhi
  unfold wrapOnce
  split
  next hneg =>
    obtain ⟨-, -, hneg⟩ := fLt_iff.mp hneg
    exact fAdd_toF_bounds hcap hfp hlo (units_zeroF ▸ hneg)
  next hnonneg =>
    have h := units_le_of_fLt_eq_false (isNaN_eq_false_of_finite hfp) (by decide) (Bool.eq_false_iff.mpr hnonneg)
    exact ⟨signBit_fAdd_eq_false hfw (by rwa [isFinite_fNeg]) (.inl (signBit_toF wh)) (units_zeroF ▸ h), hhi⟩

/-- R103 on exact values: after both wraps the sign bit is clear and the position is below CAP. -/
theorem readPos_bounds (hwh : wh < cap) (hcap : cap ≤ 2 ^ 24) (hd : isFinite d = true) (h0 : 0 ≤ units d)
    (hle : units d ≤ units (toF cap)) :
    isFinite (readPos cap wh d) = true ∧ signBit (readPos cap wh d) = false ∧
      units (readPos cap wh d) < units (toF cap) := by
  have hfc := (units_toF hcap).1
  obtain ⟨hs, hhi⟩ := wrapOnce_bounds hwh.le hcap hd h0 hle
  have hlo := units_nonneg_of_signBit hs
  have hfq : isFinite (wrapOnce cap wh d) = true :=
    finite_of_between (a := zeroF) (by decide) hfc (units_zeroF.trans_le hlo) hhi
  rw [readPos_eq_wrapOnce]
  split
  next hge =>
    obtain ⟨-, -, hge⟩ := fGe_iff.mp hge
    rw [fSub_toF_self hcap hs (le_antisymm hhi hge)]
    exact ⟨by decide, by decide, units_zeroF.trans_lt (units_toF_pos (Nat.zero_lt_of_lt hwh) hcap)⟩
  next hlt =>
    exact ⟨hfq, hs, units_lt_of_fGe_eq_false (isNaN_eq_false_of_finite hfq) (isNaN_eq_false_of_finite hfc)
      (Bool.eq_false_iff.mpr hlt)⟩

end

/-! ### The write head -/

theorem headAdvance_toNat {cap : BitVec 25} {wh : BitVec 24} (h : wh.toNat < cap.toNat) (hcap : cap.toNat ≤ 2 ^ 24) :
    (headAdvance cap wh).toNat = (wh.toNat + 1) % cap.toNat := by
  unfold headAdvance
  split
  next hlast => rw [hlast, Nat.mod_self]; rfl
  next hnext =>
    have hlt : wh.toNat + 1 < cap.toNat := by omega
    rw [BitVec.toNat_ofNat, Nat.mod_eq_of_lt (hlt.trans_le hcap), Nat.mod_eq_of_lt hlt]

/-! ### The obligations -/

/-- Settles O35: the difference rounds into [-CAP, CAP], the first wrap brings it into [0, CAP], and the second maps CAP itself to
`+0.0`; no step sets the sign bit of a result that is not negative. -/
theorem readPositionStaysInTheRing : Obligations.ReadPositionStaysInTheRing := by
  intro cap wh d hwh hcap hnan hlt hgt
  have hfin : isFinite (toF (cap - 1)) = true := (units_toF ((Nat.sub_le _ _).trans hcap)).1
  have h0 : units zeroF ≤ units d := units_le_of_fLt_eq_false hnan (by decide) hlt
  have hle : units d ≤ units (toF (cap - 1)) := units_le_of_fGt_eq_false hnan (isNaN_eq_false_of_finite hfin) hgt
  have hd := finite_of_between (by decide) hfin h0 hle
  obtain ⟨hf, hs, hbelow⟩ :=
    readPos_bounds hwh hcap hd (units_zeroF ▸ h0) (hle.trans (units_toF_mono (Nat.sub_le _ _) hcap))
  have hn := isNaN_eq_false_of_finite hf
  refine ⟨fGe_iff.mpr ⟨hn, by decide, units_zeroF.trans_le (units_nonneg_of_signBit hs)⟩,
    fLt_iff.mpr ⟨hn, isNaN_eq_false_of_finite (units_toF hcap).1, hbelow⟩, hn, fun h => ?_⟩
  rw [h] at hs
  exact absurd hs (by decide)

/-- Settles O37: below the last index the sum fits both widths, and at the last index both sides are 0. -/
theorem writeHeadAdvancesModuloTheCapacity : Obligations.WriteHeadAdvancesModuloTheCapacity :=
  fun _ _ h hcap => ⟨headAdvance_toNat h hcap, headAdvance_lt h⟩

end Sys2Proof.Machine

/-! PROOFS. The LFO's phase accumulator: the wrap of R121 and R122, and the phase and its increment in [0, 1) (R126). -/

namespace Sys2Proof.Machine

/-! ### The neighbours of a magnitude -/

/-- Below the next magnitude is at most this one: no word lies between two neighbours. -/
theorem units_le_magUnits_of_lt_succ {w : Word} {m : Nat} (h : units w < magUnits (m + 1)) : units w ≤ magUnits m := by
  rcases units_eq_or w with hw | hw <;> rw [hw] at h ⊢
  · exact_mod_cast magUnits_le_iff.mpr (Nat.le_of_lt_succ (magUnits_lt_iff.mp (by exact_mod_cast h)))
  · omega

/-- Above a magnitude is at least the next one. -/
theorem magUnits_succ_le_units_of_lt {w : Word} {m : Nat} (h : (magUnits m : Int) < units w) :
    (magUnits (m + 1) : Int) ≤ units w := by
  rcases units_eq_or w with hw | hw <;> rw [hw] at h ⊢
  · exact_mod_cast magUnits_le_iff.mpr (Nat.succ_le_of_lt (magUnits_lt_iff.mp (by exact_mod_cast h)))
  · omega

/-! ### The unit interval -/

theorem units_oneF : units oneF = 2 ^ 149 := by decide +kernel

theorem inUnit_iff {w : Word} : inUnit w = true ↔ isNaN w = false ∧ 0 ≤ units w ∧ units w < units oneF := by
  have hz : isNaN zeroF = false := by decide
  have ho : isNaN oneF = false := by decide
  simp only [inUnit, Bool.and_eq_true, fGe_iff, fLt_iff, hz, ho, units_zeroF, true_and]
  exact ⟨fun ⟨⟨hn, h0⟩, _, h1⟩ => ⟨hn, h0, h1⟩, fun ⟨hn, h0, h1⟩ => ⟨⟨hn, h0⟩, hn, h1⟩⟩

theorem finite_of_inUnit {w : Word} (h : inUnit w = true) : isFinite w = true := by
  obtain ⟨-, h0, h1⟩ := inUnit_iff.mp h
  exact finite_of_between (a := zeroF) (b := oneF) (by decide) (by decide) (units_zeroF.trans_le h0) h1.le

/-- The largest value below 1.0 is `1 - 2^-24`. -/
theorem units_le_of_lt_oneF {w : Word} (h : units w < units oneF) : units w ≤ 2 ^ 149 - 2 ^ 125 := by
  have hone : (magUnits (0x3F7FFFFF + 1) : Int) = units oneF := by decide +kernel
  have hpred : (magUnits 0x3F7FFFFF : Int) = 2 ^ 149 - 2 ^ 125 := by decide +kernel
  exact hpred ▸ units_le_magUnits_of_lt_succ (hone ▸ h)

/-! ### The wrap -/

/-- The wrap of a position in [0, 1 + c], for a representable `c`: one subtraction brings it to at most `c`, and none is made
below 1.0. -/
theorem wrapPhase_bounds {p c : Word} (hp : isFinite p = true) (hc : isNaN c = false) (h0 : 0 ≤ units p)
    (hle : units p ≤ units oneF + units c) :
    isNaN (wrapPhase p) = false ∧ 0 ≤ units (wrapPhase p) ∧
      (units (wrapPhase p) ≤ units c ∨ units (wrapPhase p) < units oneF) := by
  have hone : isFinite oneF = true := by decide
  have hnan := isNaN_eq_false_of_finite hp
  unfold wrapPhase
  split
  next hge =>
    obtain ⟨-, -, hge⟩ := fGe_iff.mp hge
    have hlo : units zeroF ≤ units (fSub p oneF) := le_units_fSub hp hone (by decide) (by rw [units_zeroF]; omega)
    exact ⟨isNaN_fSub_finite hp hone, units_zeroF ▸ hlo, .inl (units_fSub_le hp hone hc (by omega))⟩
  next hlt =>
    exact ⟨hnan, h0, .inr (units_lt_of_fGe_eq_false hnan (by decide) (Bool.eq_false_iff.mpr hlt))⟩

/-! ### The phase -/

/-- Two values in [0, 1) have a sum of at most `2 - 2^-23`, which is representable, so the wrap leaves at most `1 - 2^-23`. -/
theorem inUnit_wrapPhase_fAdd {p q : Word} (hp : inUnit p = true) (hq : inUnit q = true) :
    inUnit (wrapPhase (fAdd p q)) = true := by
  have hsum : units 0x3FFFFFFF#32 = 2 ^ 150 - 2 ^ 126 := by decide +kernel
  have hrest : units 0x3F7FFFFE#32 = 2 ^ 149 - 2 ^ 126 := by decide +kernel
  have hone := units_oneF
  have hfp := finite_of_inUnit hp
  have hfq := finite_of_inUnit hq
  obtain ⟨-, hp0, hp1⟩ := inUnit_iff.mp hp
  obtain ⟨-, hq0, hq1⟩ := inUnit_iff.mp hq
  have hlo : units zeroF ≤ units (fAdd p q) := le_units_fAdd hfp hfq (by decide) (by rw [units_zeroF]; omega)
  have hhi : units (fAdd p q) ≤ units 0x3FFFFFFF#32 := by
    have hp2 := units_le_of_lt_oneF hp1
    have hq2 := units_le_of_lt_oneF hq1
    exact units_fAdd_le hfp hfq (by decide) (by omega)
  have hfin : isFinite (fAdd p q) = true := finite_of_between (by decide) (by decide) hlo hhi
  obtain ⟨hn, h0, hle⟩ :=
    wrapPhase_bounds (c := 0x3F7FFFFE#32) hfin (by decide) (units_zeroF ▸ hlo) (by omega)
  exact inUnit_iff.mpr ⟨hn, h0, by omega⟩

/-! ### The increment -/

/-- A finite value divided by an infinity is a zero. -/
theorem fDiv_of_isInf {a b : Word} (ha : isFinite a = true) (hna : isNaN b = false) (hb : isInf b = true) :
    fDiv a b = packWord (signBit a != signBit b) 0 := by
  simp [fDiv, isNaN_eq_false_of_finite ha, isInf_eq_false_of_finite ha, hna, hb]

/-- With a rate in [0, 20] and a finite `SR` above 20, at least `20 + 2^-19`, the exact quotient is at most `1 - 2^-24`. -/
theorem inUnit_fDiv_of_finite {rate sr : Word} (hr : isFinite rate = true) (hs : isFinite sr = true)
    (h0 : 0 ≤ units rate) (hle : units rate ≤ units 0x41A00000#32) (hlt : units 0x41A00000#32 < units sr) :
    inUnit (fDiv rate sr) = true := by
  have htwenty : units 0x41A00000#32 = 20 * 2 ^ 149 := by decide +kernel
  have hmag : (magUnits 0x41A00000 : Int) = units 0x41A00000#32 := by decide +kernel
  have hsucc : (magUnits (0x41A00000 + 1) : Int) = 20 * 2 ^ 149 + 2 ^ 130 := by decide +kernel
  have hpred : units 0x3F7FFFFF#32 = 2 ^ 149 - 2 ^ 125 := by decide +kernel
  have hone := units_oneF
  have hsr := magUnits_succ_le_units_of_lt (hmag.trans_lt hlt)
  have hlo : units zeroF ≤ units (fDiv rate sr) :=
    le_units_fDiv hr hs (by decide) (by omega) (by rw [units_zeroF]; omega)
  have hhi : units (fDiv rate sr) ≤ units 0x3F7FFFFF#32 :=
    units_fDiv_le hr hs (by decide) (by omega) (by rw [hpred]; omega)
  have hfin : isFinite (fDiv rate sr) = true := finite_of_between (by decide) (by decide) hlo hhi
  exact inUnit_iff.mpr ⟨isNaN_eq_false_of_finite hfin, units_zeroF ▸ hlo, by omega⟩

theorem inUnit_fDiv_of_isInf {rate sr : Word} (hr : isFinite rate = true) (hn : isNaN sr = false)
    (hi : isInf sr = true) : inUnit (fDiv rate sr) = true := by
  rw [fDiv_of_isInf hr hn hi, inUnit_iff, units_packWord_zero, units_oneF]
  exact ⟨isNaN_packWord_zero _, le_rfl, by positivity⟩

/-- R126: a rate in [0.1, 20] and an `SR` above 20, infinity included, give an increment in [0, 1). -/
theorem inUnit_increment {rate sr : Word} (hrate : between 0x3DCCCCCD#32 rate 0x41A00000#32 = true)
    (hsr : fGt sr 0x41A00000#32 = true) : inUnit (fDiv rate sr) = true := by
  have htenth : 0 ≤ units 0x3DCCCCCD#32 := units_nonneg_of_signBit (by decide)
  rw [between, Bool.and_eq_true] at hrate
  obtain ⟨hlo, hhi⟩ := hrate
  obtain ⟨-, -, hlo⟩ := fGe_iff.mp hlo
  obtain ⟨-, -, hhi⟩ := fGe_iff.mp hhi
  obtain ⟨hn, -, hlt⟩ := fGt_iff.mp hsr
  have hr : isFinite rate = true := finite_of_between (by decide) (by decide) hlo hhi
  rcases finite_or_inf hn with hs | hi
  · exact inUnit_fDiv_of_finite hr hs (htenth.trans hlo) hhi hlt
  · exact inUnit_fDiv_of_isInf hr hn hi

/-! ### The obligation -/

/-- Settles O39: the two largest operands sum to a representable value below 2.0, and the smallest `SR` above 20 keeps the largest
increment at most the value just below 1.0. -/
theorem phaseStaysInTheUnitInterval : Obligations.PhaseStaysInTheUnitInterval :=
  ⟨fun _ _ _ => inUnit_wrapPhase_fAdd, fun _ _ => inUnit_increment⟩

end Sys2Proof.Machine

/-! PROOFS. The delay mapper: each stage of MAP (R142) is monotone on finite words, so MAP of any product is in order with MAP of
the products -1.0 and 1.0, which lie in the range of the mode (R143). -/

namespace Sys2Proof.Machine

/-! ### Order kept through monotone stages -/

/-- The word map respects the order of values on finite words. -/
def MonotoneOnFinite (f : Word → Word) : Prop :=
  ∀ x y : Word, isFinite x = true → isFinite y = true → units x ≤ units y → units (f x) ≤ units (f y)

/-- Two values in order, between two finite end points. -/
structure OrderedWithin (lo x y hi : Word) : Prop where
  finite_lo : isFinite lo = true
  finite_hi : isFinite hi = true
  lo_le : units lo ≤ units x
  le : units x ≤ units y
  le_hi : units y ≤ units hi

section

variable {lo x y hi : Word}

theorem OrderedWithin.finite_left (h : OrderedWithin lo x y hi) : isFinite x = true :=
  finite_of_between h.finite_lo h.finite_hi h.lo_le (h.le.trans h.le_hi)

theorem OrderedWithin.finite_right (h : OrderedWithin lo x y hi) : isFinite y = true :=
  finite_of_between h.finite_lo h.finite_hi (h.lo_le.trans h.le) h.le_hi

/-- A monotone stage whose end points stay finite keeps the order: finite end points are what keeps an infinity out of the next
stage. -/
theorem OrderedWithin.map {f : Word → Word} (h : OrderedWithin lo x y hi) (hf : MonotoneOnFinite f)
    (hlo : isFinite (f lo) = true) (hhi : isFinite (f hi) = true) : OrderedWithin (f lo) (f x) (f y) (f hi) where
  finite_lo := hlo
  finite_hi := hhi
  lo_le := hf lo x h.finite_lo h.finite_left h.lo_le
  le := hf x y h.finite_left h.finite_right h.le
  le_hi := hf y hi h.finite_right h.finite_hi h.le_hi

theorem OrderedWithin.fGe_right_left (h : OrderedWithin lo x y hi) : fGe y x = true :=
  fGe_iff.mpr ⟨isNaN_eq_false_of_finite h.finite_right, isNaN_eq_false_of_finite h.finite_left, h.le⟩

theorem OrderedWithin.between_left (h : OrderedWithin lo x y hi) {a b : Word} (ha : fGe lo a = true)
    (hb : fGe b hi = true) : between a x b = true := by
  obtain ⟨-, hna, hlo⟩ := fGe_iff.mp ha
  obtain ⟨hnb, -, hhi⟩ := fGe_iff.mp hb
  have hnx := isNaN_eq_false_of_finite h.finite_left
  rw [between, Bool.and_eq_true]
  exact ⟨fGe_iff.mpr ⟨hnx, hna, hlo.trans h.lo_le⟩, fGe_iff.mpr ⟨hnb, hnx, (h.le.trans h.le_hi).trans hhi⟩⟩

end

/-! ### The stages of MAP -/

/-- Quotients of finite values by one positive value are monotone in the dividend. -/
theorem units_fDiv_mono {a c d : Word} (ha : isFinite a = true) (hc : isFinite c = true) (hd : isFinite d = true)
    (hpos : 0 < units d) (h : units a ≤ units c) : units (fDiv a d) ≤ units (fDiv c d) := by
  have h0 : isZero d = false := by rw [← Bool.not_eq_true, ← units_eq_zero_iff]; omega
  have hnum : ∀ x, signedNum (signBit x != signBit d) (2 ^ 149 * (units x).natAbs) = 2 ^ 149 * units x :=
    fun _ => signed_dividend hpos.le h0
  rw [fDiv_finite ha hd h0, fDiv_finite hc hd h0]
  refine units_roundWord_mono (by omega) (by omega) ?_
  rw [hnum, hnum]
  exact Int.mul_le_mul_of_nonneg_right (by omega) (by omega)

theorem monotoneOnFinite_fAdd_right {b : Word} (hb : isFinite b = true) : MonotoneOnFinite (fun x => fAdd x b) :=
  fun _ _ hx hy h => units_fAdd_mono hx hb hy hb (by omega)

theorem monotoneOnFinite_fAdd_left {a : Word} (ha : isFinite a = true) : MonotoneOnFinite (fAdd a) :=
  fun _ _ hx hy h => units_fAdd_mono ha hx ha hy (by omega)

theorem monotoneOnFinite_fMul_left {a : Word} (ha : isFinite a = true) (h0 : 0 ≤ units a) : MonotoneOnFinite (fMul a) :=
  fun _ _ hx hy h => units_fMul_mono ha hx ha hy (Int.mul_le_mul_of_nonneg_left h h0)

theorem monotoneOnFinite_fDiv_right {d : Word} (hd : isFinite d = true) (hpos : 0 < units d) :
    MonotoneOnFinite (fun x => fDiv x d) :=
  fun _ _ hx hy h => units_fDiv_mono hx hy hd hpos h

/-! ### The product of LFO value and depth -/

theorem value_mul_le_value_mul_iff {a b c d : Word} :
    value a * value b ≤ value c * value d ↔ units a * units b ≤ units c * units d := by
  simp only [value, div_mul_div_comm]
  rw [div_le_div_iff_of_pos_right (by positivity)]
  norm_cast

theorem units_bounds_of_between {lo x hi : Word} (h : between lo x hi = true) : units lo ≤ units x ∧ units x ≤ units hi := by
  rw [between, Bool.and_eq_true, fGe_iff, fGe_iff] at h
  obtain ⟨⟨-, -, hlo⟩, -, -, hhi⟩ := h
  exact ⟨hlo, hhi⟩

section

variable {v depth v' depth' : Word}

/-- A value in [-1, 1] times one in [0, 1]: both are finite, and the exact product is in [-1, 1]. -/
theorem product_bounds (hv : between (fNeg oneF) v oneF = true) (hd : between zeroF depth oneF = true) :
    isFinite v = true ∧ isFinite depth = true ∧ units (fNeg oneF) * units oneF ≤ units v * units depth ∧
      units v * units depth ≤ units oneF * units oneF := by
  obtain ⟨hv1, hv2⟩ := units_bounds_of_between hv
  obtain ⟨hd1, hd2⟩ := units_bounds_of_between hd
  refine ⟨finite_of_between (by decide) (by decide) hv1 hv2, finite_of_between (by decide) (by decide) hd1 hd2, ?_⟩
  rw [units_zeroF] at hd1
  rw [units_fNeg] at hv1 ⊢
  have habs : |units v * units depth| ≤ units oneF * units oneF := by
    rw [abs_mul]
    exact mul_le_mul (abs_le.mpr ⟨hv1, hv2⟩) (abs_le.mpr ⟨by omega, hd2⟩) (abs_nonneg _) (by omega)
  rw [neg_mul]
  exact abs_le.mp habs

/-- The first stage of MAP: the rounded products are in the order of the exact ones. -/
theorem orderedWithin_product (hv : between (fNeg oneF) v oneF = true) (hd : between zeroF depth oneF = true)
    (hv' : between (fNeg oneF) v' oneF = true) (hd' : between zeroF depth' oneF = true)
    (h : units v * units depth ≤ units v' * units depth') :
    OrderedWithin (fMul (fNeg oneF) oneF) (fMul v depth) (fMul v' depth') (fMul oneF oneF) := by
  have hone : isFinite oneF = true := by decide
  have hneg : isFinite (fNeg oneF) = true := by decide
  obtain ⟨hfv, hfd, hlo, -⟩ := product_bounds hv hd
  obtain ⟨hfv', hfd', -, hhi⟩ := product_bounds hv' hd'
  exact
    { finite_lo := by decide +kernel
      finite_hi := by decide +kernel
      lo_le := units_fMul_mono hneg hone hfv hfd hlo
      le := units_fMul_mono hfv hfd hfv' hfd' h
      le_hi := units_fMul_mono hfv' hfd' hone hone hhi }

/-! ### MAP -/

/-- The width of the mode's range is finite and not negative. -/
theorem rangeWidth_finite_nonneg (mode : Mode) :
    isFinite (fSub (delayRange mode).2 (delayRange mode).1) = true ∧
      0 ≤ units (fSub (delayRange mode).2 (delayRange mode).1) := by
  cases mode <;> decide +kernel

/-- MAP is in order with its exact product, between MAP of the products -1.0 and 1.0. -/
theorem orderedWithin_mapDelay (mode : Mode) (hv : between (fNeg oneF) v oneF = true)
    (hd : between zeroF depth oneF = true) (hv' : between (fNeg oneF) v' oneF = true)
    (hd' : between zeroF depth' oneF = true) (h : units v * units depth ≤ units v' * units depth') :
    OrderedWithin (mapDelay (delayRange mode) oneF (fNeg oneF)) (mapDelay (delayRange mode) depth v)
      (mapDelay (delayRange mode) depth' v') (mapDelay (delayRange mode) oneF oneF) := by
  obtain ⟨hwidth, hwidth0⟩ := rangeWidth_finite_nonneg mode
  have hlo : isFinite (delayRange mode).1 = true := by cases mode <;> decide
  have hs := orderedWithin_product hv hd hv' hd' h
  have ha := hs.map (monotoneOnFinite_fAdd_right (b := oneF) (by decide)) (by decide +kernel) (by decide +kernel)
  have hc := ha.map (monotoneOnFinite_fMul_left hwidth hwidth0) (by cases mode <;> decide +kernel)
    (by cases mode <;> decide +kernel)
  have he := hc.map (monotoneOnFinite_fDiv_right (d := twoF) (by decide) (by decide +kernel))
    (by cases mode <;> decide +kernel) (by cases mode <;> decide +kernel)
  exact he.map (monotoneOnFinite_fAdd_left hlo) (by cases mode <;> decide +kernel) (by cases mode <;> decide +kernel)

end

/-- MAP of the products -1.0 and 1.0 does not pass the bounds of the mode. -/
theorem mapDelay_end_points_in_range (mode : Mode) :
    fGe (mapDelay (delayRange mode) oneF (fNeg oneF)) (delayRange mode).1 = true ∧
      fGe (delayRange mode).2 (mapDelay (delayRange mode) oneF oneF) = true := by
  cases mode <;> decide +kernel

/-! ### The obligation -/

/-- Settles O43: every stage of MAP rounds monotonically, so its end points bound it, and both are in the range of the mode. -/
theorem mapStaysInTheModeRange : Obligations.MapStaysInTheModeRange := by
  intro mode v depth v' depth' hv hd hv' hd'
  obtain ⟨hlo, hhi⟩ := mapDelay_end_points_in_range mode
  exact ⟨(orderedWithin_mapDelay mode hv hd hv hd le_rfl).between_left hlo hhi,
    fun h => (orderedWithin_mapDelay mode hv hd hv' hd' (value_mul_le_value_mul_iff.mp h)).fGe_right_left⟩

end Sys2Proof.Machine

/-! PROOFS. The interpolator: SPLIT takes an exact fraction off the read position (R160), and LERP stays between the two words
read (R162). -/

namespace Sys2Proof.Machine

/-! ### The fraction of a position is representable -/

/-- Every significand below 2^24 gives a magnitude at every exponent: a short one is doubled down the binades. -/
theorem exists_magUnits_eq_mul_two_pow (k : Nat) : ∀ n < 2 ^ 24, ∃ m, magUnits m = n * 2 ^ k := by
  induction k with
  | zero => exact fun n hn => ⟨n, by simpa using magUnits_significand (sh := 0) hn.le (.inl rfl)⟩
  | succ k ih =>
    intro n hn
    rcases Nat.lt_or_ge n (2 ^ 23) with hshort | hfull
    · obtain ⟨m, hm⟩ := ih (n * 2) (by omega)
      exact ⟨m, by rw [hm, pow_succ']; ring⟩
    · exact ⟨_, magUnits_significand hn.le (.inr hfull)⟩

/-- The remainder of a magnitude by a power of two is a magnitude: it keeps the exponent and loses high significand bits. -/
theorem exists_magUnits_eq_mod_two_pow (m j : Nat) : ∃ m', magUnits m' = magUnits m % 2 ^ j := by
  obtain ⟨sh, n, rfl, hn, hsh⟩ := bits_significand m
  rw [magUnits_significand hn.le hsh]
  rcases Nat.le_total j sh with hle | hle
  · refine ⟨0, ?_⟩
    rw [magUnits_zero, Nat.mod_eq_zero_of_dvd ((pow_dvd_pow 2 hle).mul_left n)]
  · obtain ⟨m', hm'⟩ := exists_magUnits_eq_mul_two_pow sh (n % 2 ^ (j - sh)) ((Nat.mod_le _ _).trans_lt hn)
    refine ⟨m', ?_⟩
    rw [hm', ← Nat.mul_mod_mul_right, ← pow_add, Nat.sub_add_cancel hle]

/-- The part of a finite word below a power of two is the value of a word. -/
theorem exists_units_eq_mod_two_pow {p : Word} (hp : isFinite p = true) (h0 : 0 ≤ units p) (j : Nat) :
    ∃ c, isNaN c = false ∧ units c = units p % 2 ^ j := by
  obtain ⟨m, hm⟩ := exists_magUnits_eq_mod_two_pow (magBits p) j
  have hlt : m < infBits := by
    have hmod : magUnits m ≤ magUnits (magBits p) := hm ▸ Nat.mod_le _ _
    exact (magUnits_le_iff.mp hmod).trans_lt ((isFinite_iff p).mp hp)
  have hword : m < 2 ^ 31 := hlt.trans (by decide)
  have hunits : units p = magUnits (magBits p) := by rw [← natAbs_units, Int.natAbs_of_nonneg h0]
  refine ⟨packWord false m, ?_, ?_⟩
  · rw [isNaN_eq_false_iff, magBits_packWord hword]
    exact hlt.le
  · rw [units_packWord hword, if_neg Bool.false_ne_true, hunits]
    exact_mod_cast hm

/-! ### SPLIT -/

section

variable {cap : Nat} {p : Word}

/-- A position in the ring is finite, and its floor is an index in use. -/
theorem exists_floor_of_position (hcap : cap ≤ 2 ^ 24) (h0 : fGe p zeroF = true) (hlt : fLt p (toF cap) = true) :
    isFinite p = true ∧ ∃ i0 : Nat, i0 < cap ∧ units p / 2 ^ 149 = i0 := by
  obtain ⟨-, -, h0⟩ := fGe_iff.mp h0
  obtain ⟨-, -, hlt⟩ := fLt_iff.mp hlt
  obtain ⟨hfc, hcu⟩ := units_toF hcap
  have hp : isFinite p = true := finite_of_between (a := zeroF) (by decide) hfc h0 hlt.le
  rw [units_zeroF] at h0
  rw [hcu] at hlt
  exact ⟨hp, (units p / 2 ^ 149).toNat, by omega, by omega⟩

/-- SPLIT of a position with a known floor; its integer wrap is the wrap of indices. -/
theorem split_of_floor {i0 : Nat} (hp : isFinite p = true) (hfloor : units p / 2 ^ 149 = i0) :
    split cap p = some ((i0 : Int), ((if i0 + 1 = cap then 0 else i0 + 1 : Nat) : Int), fSub p (toF i0)) := by
  have hwrap : (if (i0 : Int) + 1 = cap then 0 else (i0 : Int) + 1) = ((if i0 + 1 = cap then 0 else i0 + 1 : Nat) : Int) := by
    norm_cast
  simp only [split, floorI_of_finite hp, hfloor, hwrap, Int.toNat_natCast]

/-- The subtraction of SPLIT is exact: it answers the position's units below those of 1.0. -/
theorem units_fSub_toF_floor {i0 : Nat} (hp : isFinite p = true) (h0 : 0 ≤ units p) (hi : i0 ≤ 2 ^ 24)
    (hfloor : units p / 2 ^ 149 = i0) : units (fSub p (toF i0)) = units p % 2 ^ 149 := by
  obtain ⟨c, hc, hcu⟩ := exists_units_eq_mod_two_pow hp h0 149
  obtain ⟨hfi, hiu⟩ := units_toF hi
  rw [← hcu]
  exact units_fSub_exact hp hfi hc (by omega)

end

/-- A word whose units are those of `p` below 1.0 has the fractional part of `p` as its value. -/
theorem value_eq_fract {f p : Word} (h : units f = units p % 2 ^ 149) : value f = Int.fract (value p) := by
  have hfract := Int.fract_div_intCast_eq_div_intCast_mod (k := ℚ) (m := units p) (n := 2 ^ 149)
  rw [value, h, value]
  exact_mod_cast hfract.symm

/-! ### Words of one value -/

/-- The sign bit of a word that is no zero is the sign of its value. -/
theorem signBit_eq_decide_units_neg {w : Word} (h : isZero w = false) : signBit w = decide (units w < 0) := by
  have hpos : 0 < magUnits (magBits w) := by
    rw [Nat.pos_iff_ne_zero, Ne, magUnits_eq_zero_iff, ← isZero_iff, h]
    exact Bool.false_ne_true
  unfold units
  cases signBit w
  · simp
  · simpa using hpos

/-- Two words of one value are equal, but for the sign of a zero. -/
theorem eq_or_zeros_of_units_eq {a b : Word} (h : units a = units b) : a = b ∨ isZero a = true ∧ isZero b = true := by
  have hmag : magBits a = magBits b := by
    apply magUnits_strictMono.injective
    rw [← natAbs_units, ← natAbs_units, h]
  have hzero : isZero a = isZero b := by rw [isZero, isZero, hmag]
  cases hz : isZero a
  case true => exact .inr ⟨rfl, hzero ▸ hz⟩
  case false =>
    refine .inl (eq_of_sign_mag ?_ hmag)
    rw [signBit_eq_decide_units_neg hz, signBit_eq_decide_units_neg (hzero ▸ hz), h]

/-! ### The output clamp -/

section

variable {r x0 x1 : Word} (h0 : isNaN x0 = false) (h1 : isNaN x1 = false)

include h0 h1

theorem isNaN_fMin : isNaN (fMin x0 x1) = false := by unfold fMin; split <;> assumption

theorem isNaN_fMax : isNaN (fMax x0 x1) = false := by unfold fMax; split <;> assumption

theorem units_fMin_le_units_fMax : units (fMin x0 x1) ≤ units (fMax x0 x1) := by
  unfold fMin
  split
  next hlt =>
    obtain ⟨-, -, hlt⟩ := fLt_iff.mp hlt
    rw [fMax, if_neg (by rw [fGt_iff]; omega)]
    exact hlt.le
  next hge =>
    have hle := units_le_of_fLt_eq_false h0 h1 (Bool.eq_false_iff.mpr hge)
    unfold fMax
    split
    · exact hle
    · exact le_rfl

/-- The clamp of R161 brings every sum that is no NaN between the two words. -/
theorem between_bracket (hr : isNaN r = false) : between (fMin x0 x1) (bracket r x0 x1) (fMax x0 x1) = true := by
  have hlo := isNaN_fMin h0 h1
  have hhi := isNaN_fMax h0 h1
  have hle := units_fMin_le_units_fMax h0 h1
  simp only [between, bracket, hr, h0, h1, Bool.or_self, Bool.false_eq_true, if_false, Bool.and_eq_true]
  split
  next hbelow =>
    rw [if_neg (by rw [fGt_iff]; omega)]
    exact ⟨fGe_self hlo, fGe_iff.mpr ⟨hhi, hlo, hle⟩⟩
  next hnotBelow =>
    have hge := units_le_of_fLt_eq_false hr hlo (Bool.eq_false_iff.mpr hnotBelow)
    split
    next habove => exact ⟨fGe_iff.mpr ⟨hhi, hlo, hle⟩, fGe_self hhi⟩
    next hnotAbove =>
      have hle' := units_le_of_fGt_eq_false hr hhi (Bool.eq_false_iff.mpr hnotAbove)
      exact ⟨fGe_iff.mpr ⟨hr, hlo, hge⟩, fGe_iff.mpr ⟨hhi, hr, hle'⟩⟩

/-- The clamp neither makes nor loses a NaN. -/
theorem isNaN_bracket : isNaN (bracket r x0 x1) = isNaN r := by
  cases hr : isNaN r
  · have hb := between_bracket h0 h1 hr
    rw [between, Bool.and_eq_true, fGe_iff] at hb
    obtain ⟨⟨hn, -, -⟩, -⟩ := hb
    exact hn
  · simp [bracket, hr]

end

/-! ### Undefined sums and products -/

theorem isNaN_canonicalNaN : isNaN canonicalNaN = true := by decide

/-- A sum is a NaN for a NaN operand and for infinities of opposite signs only. -/
theorem isNaN_fAdd_iff {a b : Word} :
    isNaN (fAdd a b) = true ↔
      isNaN a = true ∨ isNaN b = true ∨ isInf a = true ∧ isInf b = true ∧ signBit a ≠ signBit b := by
  cases hna : isNaN a
  case true => simp [fAdd, hna, isNaN_canonicalNaN]
  cases hnb : isNaN b
  case true => simp [fAdd, hnb, isNaN_canonicalNaN]
  rcases finite_or_inf hna with hfa | hia
  · have hia := isInf_eq_false_of_finite hfa
    rcases finite_or_inf hnb with hfb | hib
    · simp [isNaN_fAdd_finite hfa hfb, hia]
    · simp [fAdd, hna, hnb, hia, hib]
  · by_cases hs : isInf b = true ∧ signBit a ≠ signBit b
    · simp [fAdd, hna, hnb, hia, hs, isNaN_canonicalNaN]
    · simp [fAdd, hna, hnb, hia, hs]

/-- The sign of a product that is no NaN. -/
theorem signBit_fMul {a b : Word} (h : isNaN (fMul a b) = false) : signBit (fMul a b) = (signBit a != signBit b) := by
  unfold fMul at h ⊢
  dsimp only at h ⊢
  split_ifs at h ⊢
  · simp [isNaN_canonicalNaN] at h
  · simp [isNaN_canonicalNaN] at h
  · exact signBit_packWord (by decide)
  · exact signBit_roundWord _ _ _

/-! ### A word times a weight -/

/-- A weight of the interpolation: a value in [0, 1]. -/
structure IsWeight (w : Word) : Prop where
  finite : isFinite w = true
  nonneg : 0 ≤ units w
  le_one : units w ≤ units oneF

theorem isWeight_of_inUnit {f : Word} (h : inUnit f = true) : IsWeight f := by
  obtain ⟨-, h0, h1⟩ := inUnit_iff.mp h
  exact ⟨finite_of_inUnit h, h0, h1.le⟩

/-- The weight of the first word is above zero: the least positive value does not pass `1 - frac`. -/
theorem units_one_sub_pos {f : Word} (h : inUnit f = true) : 0 < units (fSub oneF f) := by
  obtain ⟨-, -, h1⟩ := inUnit_iff.mp h
  have htiny : units 0x00000001#32 = 1 := by decide
  have hle := le_units_fSub (a := oneF) (c := 0x00000001#32) (by decide) (finite_of_inUnit h) (by decide) (by omega)
  omega

theorem isWeight_one_sub {f : Word} (h : inUnit f = true) : IsWeight (fSub oneF f) := by
  obtain ⟨-, h0, -⟩ := inUnit_iff.mp h
  have hpos := units_one_sub_pos h
  have hle : units (fSub oneF f) ≤ units oneF := units_fSub_le (by decide) (finite_of_inUnit h) (by decide) (by omega)
  exact ⟨finite_of_between (a := zeroF) (b := oneF) (by decide) (by decide) (units_zeroF.trans_le hpos.le) hle, hpos.le, hle⟩

section

variable {w x : Word} (hw : IsWeight w)

include hw

/-- A weight does not enlarge a finite word: the product is between zero and the word. -/
theorem IsWeight.isFinite_fMul (hx : isFinite x = true) : isFinite (fMul w x) = true := by
  have hnx := isNaN_eq_false_of_finite hx
  have hz : isFinite zeroF = true := by decide
  have hle : units w ≤ 2 ^ 149 := units_oneF ▸ hw.le_one
  rcases Int.le_total 0 (units x) with h | h
  · refine finite_of_between hz hx (le_units_fMul hw.finite hx (by decide) ?_) (units_fMul_le hw.finite hx hnx ?_)
    · rw [units_zeroF, Int.zero_mul]
      exact Int.mul_nonneg hw.nonneg h
    · rw [Int.mul_comm]
      exact Int.mul_le_mul_of_nonneg_left hle h
  · refine finite_of_between hx hz (le_units_fMul hw.finite hx hnx ?_) (units_fMul_le hw.finite hx (by decide) ?_)
    · rw [Int.mul_comm (units w)]
      exact Int.mul_le_mul_of_nonpos_left h hle
    · rw [units_zeroF, Int.zero_mul]
      exact Int.mul_nonpos_of_nonneg_of_nonpos hw.nonneg h

theorem IsWeight.fMul_of_isInf (hx : isNaN x = false) (hi : isInf x = true) :
    fMul w x = if isZero w then canonicalNaN else infinity (signBit w != signBit x) := by
  have hz : isZero x = false := by
    rw [isInf_iff] at hi
    rw [isZero, hi]
    decide
  simp [fMul, isNaN_eq_false_of_finite hw.finite, hx, hi, hz]

/-- A weighted word is undefined for the weight zero of an infinity only. -/
theorem IsWeight.isNaN_fMul (hx : isNaN x = false) : isNaN (fMul w x) = (isZero w && isInf x) := by
  rcases finite_or_inf hx with hf | hi
  · rw [isNaN_fMul_finite hw.finite hf, isInf_eq_false_of_finite hf, Bool.and_false]
  · rw [hw.fMul_of_isInf hx hi, hi]
    cases isZero w <;> simp [isNaN_canonicalNaN]

/-- A weighted word is infinite for an infinity with a weight above zero only. -/
theorem IsWeight.isInf_fMul (hx : isNaN x = false) : isInf (fMul w x) = (!isZero w && isInf x) := by
  rcases finite_or_inf hx with hf | hi
  · rw [isInf_eq_false_of_finite (hw.isFinite_fMul hf), isInf_eq_false_of_finite hf, Bool.and_false]
  · rw [hw.fMul_of_isInf hx hi, hi]
    cases isZero w <;> cases signBit w != signBit x <;> decide

/-- A weight above zero keeps the sign of a word. -/
theorem IsWeight.signBit_fMul (hx : isNaN x = false) (h0 : isZero w = false) : signBit (fMul w x) = signBit x := by
  have hn : isNaN (fMul w x) = false := by rw [hw.isNaN_fMul hx, h0, Bool.false_and]
  have hs : signBit w = false := by rw [signBit_eq_decide_units_neg h0, decide_eq_false (not_lt.mpr hw.nonneg)]
  rw [Machine.signBit_fMul hn, hs, Bool.false_bne]

end

/-! ### LERP -/

theorem between_lerp {x0 x1 frac : Word} (h0 : isNaN x0 = false) (h1 : isNaN x1 = false)
    (hn : isNaN (lerp x0 x1 frac) = false) :
    between (fMin x0 x1) (lerp x0 x1 frac) (fMax x0 x1) = true := by
  rw [lerp, isNaN_bracket h0 h1] at hn
  exact between_bracket h0 h1 hn

section

variable {x0 x1 frac : Word} (hf : inUnit frac = true) (h0 : isNaN x0 = false) (h1 : isNaN x1 = false)

include hf h0 h1

/-- The weighted sum of R161 before its clamp. -/
theorem isNaN_weighted_sum_iff :
    isNaN (fAdd (fMul (fSub oneF frac) x0) (fMul frac x1)) = true ↔
      isZero frac = true ∧ isInf x1 = true ∨ isInf x0 = true ∧ isInf x1 = true ∧ signBit x0 ≠ signBit x1 := by
  have hv := isWeight_of_inUnit hf
  have hu := isWeight_one_sub hf
  have hu0 : isZero (fSub oneF frac) = false := by
    have hpos := units_one_sub_pos hf
    rw [← Bool.not_eq_true, ← units_eq_zero_iff]
    omega
  rw [isNaN_fAdd_iff, hu.isNaN_fMul h0, hv.isNaN_fMul h1, hu.isInf_fMul h0, hv.isInf_fMul h1, hu.signBit_fMul h0 hu0, hu0]
  cases hz : isZero frac
  case true => simpa using fun _ h _ => h
  case false => simp [hv.signBit_fMul h1 hz]

theorem isNaN_lerp_iff :
    isNaN (lerp x0 x1 frac) = true ↔
      isZero frac = true ∧ isInf x1 = true ∨ isInf x0 = true ∧ isInf x1 = true ∧ signBit x0 ≠ signBit x1 := by
  rw [lerp, isNaN_bracket h0 h1, isNaN_weighted_sum_iff hf h0 h1]

end

/-- Between two equal words is only that word, but for the sign of a zero. -/
theorem eq_or_zeros_of_between_fMin_fMax {x y : Word} (h : between (fMin x x) y (fMax x x) = true) :
    y = x ∨ isZero x = true ∧ isZero y = true := by
  rw [fMin, fMax, ite_self, ite_self] at h
  obtain ⟨hlo, hhi⟩ := units_bounds_of_between h
  exact (eq_or_zeros_of_units_eq (le_antisymm hhi hlo)).imp_right And.symm

/-! ### The obligations -/

/-- Settles O48: the fraction keeps the exponent of the position and loses the significand bits of the floor, so the subtraction
is exact. -/
theorem splitIsExactAndInBounds : Obligations.SplitIsExactAndInBounds := by
  intro cap p hcap h0 hlt
  obtain ⟨hp, i0, hi, hfloor⟩ := exists_floor_of_position hcap h0 hlt
  obtain ⟨-, -, h0⟩ := fGe_iff.mp h0
  have hi24 : i0 ≤ 2 ^ 24 := hi.le.trans hcap
  have hunits := units_fSub_toF_floor hp (units_zeroF ▸ h0) hi24 hfloor
  have hvalue := value_eq_fract hunits
  have hfl : ⌊value p⌋ = (i0 : Int) := (floor_value p).trans hfloor
  have hfin : isFinite (fSub p (toF i0)) = true :=
    finite_of_between (a := zeroF) (b := oneF) (by decide) (by decide) (by rw [units_zeroF]; omega) (by rw [units_oneF]; omega)
  have hle : (i0 : ℚ) ≤ value p := by simpa [hfl] using Int.floor_le (value p)
  have hsucc : value p < i0 + 1 := by simpa [hfl] using Int.lt_floor_add_one (value p)
  refine ⟨i0, _, split_of_floor hp hfloor, hi, by split <;> omega, rfl, hle, hsucc, hfin, ?_, ?_, ?_⟩
  · rw [hvalue, Int.fract, hfl, Int.cast_natCast]
  · exact hvalue ▸ Int.fract_nonneg _
  · exact hvalue ▸ Int.fract_lt_one _

/-- Settles O49: a weight in [0, 1] makes no infinity and no NaN of a finite word, so only infinite words make the sum undefined,
and every other sum is clamped between the words; the rule's example is evaluated. -/
theorem interpolationStaysBetweenTheWords : Obligations.InterpolationStaysBetweenTheWords := by
  refine ⟨fun x0 x1 frac hf h0 h1 => ⟨isNaN_lerp_iff hf h0 h1, fun hn => ?_⟩, by decide +kernel⟩
  have hbetween := between_lerp h0 h1 hn
  refine ⟨hbetween, fun heq => ?_⟩
  subst heq
  exact eq_or_zeros_of_between_fMin_fMax hbetween

end Sys2Proof.Machine

/-! PROOFS. The crossfader at its end points (R184): a factor 1.0 and a zero summand keep a word, a zero factor makes a NaN of a word
that is not finite. -/

namespace Sys2Proof.Machine

/-! ### Words told apart by value and sign -/

theorem eq_of_units_eq_of_signBit_eq {a b : Word} (h : units a = units b) (hs : signBit a = signBit b) : a = b := by
  rcases eq_or_zeros_of_units_eq h with heq | ⟨ha, hb⟩
  · exact heq
  · exact eq_of_sign_mag hs (((isZero_iff a).mp ha).trans ((isZero_iff b).mp hb).symm)

theorem isZero_iff_eq (w : Word) : isZero w = true ↔ w = zeroF ∨ w = fNeg zeroF where
  mp h := by
    rw [isZero_iff] at h
    rw [← packWord_self w, h]
    cases signBit w <;> decide
  mpr h := by rcases h with rfl | rfl <;> decide

theorem eq_infinity_of_isInf {x : Word} (h : isInf x = true) : x = infinity (signBit x) := by
  rw [infinity, ← (isInf_iff x).mp h, packWord_self]

theorem finite_of_isZero {w : Word} (h : isZero w = true) : isFinite w = true := by
  rcases (isZero_iff_eq w).mp h with rfl | rfl <;> decide

/-! ### Products with 1.0 and +0.0 -/

theorem units_fMul_oneF {x : Word} (hx : isFinite x = true) : units (fMul x oneF) = units x := by
  have h1 : isFinite oneF = true := by decide
  have hn := isNaN_eq_false_of_finite hx
  have hprod : units x * units oneF = units x * 2 ^ 149 := by rw [units_oneF]
  exact le_antisymm (units_fMul_le hx h1 hn hprod.le) (le_units_fMul hx h1 hn hprod.ge)

/-- The factor 1.0 keeps every bit of a word that is no NaN. -/
theorem fMul_oneF {x : Word} (hx : isNaN x = false) : fMul x oneF = x := by
  have hs : (signBit x != signBit oneF) = signBit x := Bool.bne_false _
  rcases finite_or_inf hx with hf | hi
  · refine eq_of_units_eq_of_signBit_eq (units_fMul_oneF hf) ?_
    rw [signBit_fMul (isNaN_fMul_finite hf (by decide)), hs]
  · have h1 : isNaN oneF = false ∧ isZero oneF = false := by decide
    have hz : isZero x = false := by
      rw [eq_infinity_of_isInf hi]
      cases signBit x <;> decide
    simp only [fMul, hx, h1, hi, hz, hs, Bool.or_self, Bool.true_or, Bool.false_eq_true, if_false, if_true]
    exact (eq_infinity_of_isInf hi).symm

theorem isZero_fMul_zeroF {x : Word} (hx : isFinite x = true) : isZero (fMul x zeroF) = true := by
  have hz : isFinite zeroF = true := by decide
  have hn := isNaN_eq_false_of_finite hz
  have hprod : units x * units zeroF = units zeroF * 2 ^ 149 := by rw [units_zeroF, mul_zero, zero_mul]
  rw [← units_eq_zero_iff, ← units_zeroF]
  exact le_antisymm (units_fMul_le hx hz hn hprod.le) (le_units_fMul hx hz hn hprod.ge)

theorem isNaN_fMul_zeroF {x : Word} (hx : isFinite x = false) : isNaN (fMul x zeroF) = true := by
  have hz : isNaN zeroF = false ∧ isZero zeroF = true := by decide
  cases hn : isNaN x
  case true => simp [fMul, hn, isNaN_canonicalNaN]
  case false =>
    have hi : isInf x = true := (finite_or_inf hn).resolve_left (by simp [hx])
    simp [fMul, hn, hi, hz, isNaN_canonicalNaN]

/-! ### Sums with a zero -/

section

variable {a z : Word} (hz : isZero z = true)

include hz

theorem units_fAdd_zero_right (ha : isFinite a = true) : units (fAdd a z) = units a :=
  units_fAdd_exact ha (finite_of_isZero hz) (isNaN_eq_false_of_finite ha) (by rw [units_eq_zero_iff.mpr hz, add_zero])

theorem units_fAdd_zero_left (ha : isNaN a = false) : units (fAdd z a) = units a := by
  have hfz := finite_of_isZero hz
  rcases finite_or_inf ha with hf | hi
  · exact units_fAdd_exact hfz hf ha (by rw [units_eq_zero_iff.mpr hz, zero_add])
  · simp [fAdd, isNaN_eq_false_of_finite hfz, isInf_eq_false_of_finite hfz, ha, hi]

theorem isNaN_fAdd_zero_left (ha : isNaN a = false) : isNaN (fAdd z a) = false := by
  have hfz := finite_of_isZero hz
  rw [← Bool.not_eq_true, isNaN_fAdd_iff]
  simp [isNaN_eq_false_of_finite hfz, isInf_eq_false_of_finite hfz, ha]

/-- A zero summand keeps every bit of a finite word, but that it can turn -0.0 into +0.0. -/
theorem fAdd_zero_right (ha : isFinite a = true) : fAdd a z = a ∨ a = fNeg zeroF ∧ fAdd a z = zeroF := by
  rcases eq_or_zeros_of_units_eq (units_fAdd_zero_right hz ha) with h | ⟨-, hza⟩
  · exact .inl h
  · rcases (isZero_iff_eq a).mp hza with rfl | rfl <;> rcases (isZero_iff_eq z).mp hz with rfl | rfl <;> decide

end

/-- A factor 1.0 under a sum changes nothing, not even for a NaN: the sum is then the canonical NaN in any case. -/
theorem fAdd_fMul_oneF (a b : Word) : fAdd a (fMul b oneF) = fAdd a b := by
  cases hb : isNaN b
  case false => rw [fMul_oneF hb]
  case true =>
    have hm : isNaN (fMul b oneF) = true := by simp [fMul, hb, isNaN_canonicalNaN]
    rw [fAdd_nan (isNaN_fAdd_iff.mpr (.inr (.inl hm))), fAdd_nan (isNaN_fAdd_iff.mpr (.inr (.inl hb)))]

/-! ### XFADE at its end points -/

/-- The dry weight at mix 0.0 is 1.0. -/
theorem xfade_zeroF (dry y : Word) : xfade dry y zeroF = fAdd (fMul dry oneF) (fMul y zeroF) := by
  have hw : fSub oneF zeroF = oneF := by decide +kernel
  rw [xfade, hw]

/-- The dry weight at mix 1.0 is +0.0. -/
theorem xfade_oneF (dry y : Word) : xfade dry y oneF = fAdd (fMul dry zeroF) y := by
  have hw : fSub oneF oneF = zeroF := by decide +kernel
  rw [xfade, hw, fAdd_fMul_oneF]

theorem xfade_zeroF_of_finite {dry : Word} (hd : isFinite dry = true) (y : Word) :
    xfade dry y zeroF = fAdd dry (fMul y zeroF) := by
  rw [xfade_zeroF, fMul_oneF (isNaN_eq_false_of_finite hd)]

/-- The dry bypass. -/
theorem xfade_zeroF_eq_dry {dry y : Word} (hd : isFinite dry = true) (hy : isFinite y = true) :
    value (xfade dry y zeroF) = value dry ∧
      (xfade dry y zeroF = dry ∨ dry = fNeg zeroF ∧ xfade dry y zeroF = zeroF) := by
  have hz := isZero_fMul_zeroF hy
  rw [xfade_zeroF_of_finite hd]
  exact ⟨by rw [value, value, units_fAdd_zero_right hz hd], fAdd_zero_right hz hd⟩

theorem xfade_zeroF_of_not_finite (dry : Word) {y : Word} (hy : isFinite y = false) :
    xfade dry y zeroF = canonicalNaN := by
  rw [xfade_zeroF]
  exact fAdd_nan (isNaN_fAdd_iff.mpr (.inr (.inl (isNaN_fMul_zeroF hy))))

/-- No dry component. -/
theorem xfade_oneF_eq_delayed {dry y : Word} (hd : isFinite dry = true) (hy : isNaN y = false) :
    fGe (xfade dry y oneF) y = true ∧ fGe y (xfade dry y oneF) = true := by
  have hz := isZero_fMul_zeroF hd
  have hn := isNaN_fAdd_zero_left hz hy
  have hu := units_fAdd_zero_left hz hy
  rw [xfade_oneF]
  exact ⟨fGe_iff.mpr ⟨hn, hy, hu.ge⟩, fGe_iff.mpr ⟨hy, hn, hu.le⟩⟩

theorem xfade_oneF_of_not_finite {dry : Word} (hd : isFinite dry = false) (y : Word) :
    xfade dry y oneF = canonicalNaN := by
  rw [xfade_oneF]
  exact fAdd_nan (isNaN_fAdd_iff.mpr (.inl (isNaN_fMul_zeroF hd)))

/-! ### The obligation -/

/-- Settles O50: one weight is exactly 1.0 and the other exactly +0.0, so one product is its word and the other a zero, or a NaN
where its word is not finite. -/
theorem crossfadeEndPoints : Obligations.CrossfadeEndPoints :=
  fun dry y => ⟨xfade_zeroF dry y, xfade_oneF dry y, xfade_zeroF_eq_dry, xfade_zeroF_of_not_finite dry,
    xfade_oneF_eq_delayed, fun hd => xfade_oneF_of_not_finite hd y⟩

end Sys2Proof.Machine

/-! PROOFS. The two commands that run no audio: NOP (R201) and CLRERR (R204), each from every state. -/

namespace Sys2Proof.Machine

/-! ### What the two commands answer -/

theorem exec_nop (s : State) : exec .nop s = .next s := rfl

theorem exec_clrerr (s : State) : exec .clrerr s = .next s.clearFlags := rfl

/-- With the four flags at 0, `PREP` is the only bit of STATUS that can be set (R31). -/
theorem status_clearFlags (s : State) : s.clearFlags.status = if s.prep then 0x01#8 else 0x00#8 := by
  rw [State.status, clearFlags_prep, clearFlags_errUnprep, clearFlags_errCmd, clearFlags_errCfg, clearFlags_dsat]
  cases s.prep with
  | false => rfl
  | true => rfl

/-! ### The obligations -/

/-- Settles O13: NOP answers the state it is given. -/
theorem nopChangesNothing : Obligations.NopChangesNothing := exec_nop

/-- Settles O14: CLRERR is one update of the four flags, and STATUS then shows `PREP` alone. -/
theorem clrerrClearsTheFourFlagsOnly : Obligations.ClrerrClearsTheFourFlagsOnly :=
  fun s => ⟨exec_clrerr s, status_clearFlags s⟩

end Sys2Proof.Machine

/-! PROOFS. The three errors (R220 to R223), each with the command that raises it: an ILLEGAL word (R205), PREPARE of an invalid
configuration (R202), and SAMPLE while Unprepared (R221); and the frame that SAMPLE computes while Prepared (R203). -/

namespace Sys2Proof.Machine

/-! ### An accepted command word -/

theorem instant_of_accept {s : State} (hr : s.ports.rst = false) (hv : s.ports.cmdValid = true) :
    instant s = acceptCommand s := by
  simp [instant, State.outputs, hr, hv]

/-- An instant whose levels offer a command, with no reset, executes their word (R81). -/
theorem step_of_accept {s : State} {p : Ports} {rest : List Ports} (hin : s.inputs = p :: rest) (hr : p.rst = false)
    (hv : p.cmdValid = true) : step s = acceptCommand { s with ports := p, inputs := rest } := by
  rw [step, takeInputs_cons hin]
  exact instant_of_accept hr hv

theorem toNat_encode_lt (i : Instr) : (encode i).toNat < 4 := by cases i <;> decide

theorem decode_ne_ok_of_four_le {w : Byte} (h : 4 ≤ w.toNat) (i : Instr) : decode w ≠ .ok i := by
  intro hd
  rw [decode_ok_iff.mp hd] at h
  exact absurd (toNat_encode_lt i) (Nat.not_lt.mpr h)

/-- A word that no command has is executed as ILLEGAL (R73, R205). -/
theorem acceptCommand_of_four_le {s : State} (h : 4 ≤ s.ports.cmd.toNat) :
    acceptCommand s = .next (raiseError .cmd s) := by
  unfold acceptCommand
  split
  next i hd => exact absurd hd (decode_ne_ok_of_four_le h i)
  next => rfl

/-! ### PREPARE of an invalid configuration -/

/-- A capacity that CAPCALC answers is one that the configuration is valid for (R100). -/
theorem configValid_of_capCalc {capMax c : Nat} {sr md : Word} (h : capCalc capMax sr md = some c) :
    ConfigValid capMax sr md c := by
  obtain ⟨hsr, hsrPos, hmd, hmdPos, hprod, hge, n, hn, hle, rfl⟩ := capCalc_eq_some h
  have hone := one_le_of_floorI hge hn
  have hcast : (n.toNat : Int) = n := Int.toNat_of_nonneg (by omega)
  exact ⟨hsr, hsrPos, hmd, hmdPos, hprod, hge, by rw [hn, hcast], by omega⟩

theorem execPrepare_of_invalid {s : State}
    (h : ∀ c, ¬ConfigValid Config.hardware.capMaxOf s.ports.cfgSampleRate s.ports.cfgMaxDelay c) :
    execPrepare s = .next (raiseError .cfg (prepareInvalid s)) := by
  rcases execPrepare_cases s with ⟨c, hc, -⟩ | ⟨-, he⟩
  · exact absurd (configValid_of_capCalc hc) (h c)
  · exact he

/-! ### SAMPLE in the two engine states -/

theorem execSample_of_unprepared {s : State} (h : s.prep = false) : execSample s = .next (raiseError .unprep s) := by
  simp [execSample, sampleOn, h]

theorem execSample_of_prepared {s : State} (h : s.prep = true) :
    execSample s = sampleFrom (SampleOperands.ofPorts s.ports) (lfoValue Config.hardware.sine.fn s.phase)
      (lfoValue Config.hardware.sine.fn (phaseRight s.phase s.ports.pPhaseOffset)) s := by
  simp [execSample, sampleOn, h, SampleOperands.ofPorts]

/-! ### A lane of SAMPLE completes -/

section

variable {cap wh : Nat} {m : Memory} {d p : Word}

/-- A delay that DCLAMP answers is no NaN, not below zero and not above `CAP - 1`: what R103 asks of it. -/
theorem dclamp_in_ring (hcap : cap ≤ 2 ^ 24) (x : Word) :
    isNaN (dclamp cap x).1 = false ∧ fLt (dclamp cap x).1 zeroF = false ∧ fGt (dclamp cap x).1 (toF (cap - 1)) = false := by
  have hle : cap - 1 ≤ 2 ^ 24 := (Nat.sub_le _ _).trans hcap
  have htop : isNaN (toF (cap - 1)) = false := isNaN_eq_false_of_finite (units_toF hle).1
  have h0 : 0 ≤ units (toF (cap - 1)) := units_nonneg_of_signBit (signBit_toF _)
  unfold dclamp
  dsimp only
  split
  next => exact ⟨by decide, by decide, by simp [fGt, units_zeroF, h0]⟩
  next hlow =>
    split
    next => exact ⟨htop, by simp [fLt, units_zeroF, h0], by simp [fGt]⟩
    next hhigh =>
      simp only [Bool.or_eq_true, not_or, Bool.not_eq_true] at hlow hhigh
      exact ⟨hlow.1, hlow.2, hhigh⟩

/-- A read at a position in the ring finds both of its words in use, so it blends them (R160, R161). -/
theorem readDelayed_of_position (hcap : cap ≤ 2 ^ 24) (h0 : fGe p zeroF = true) (hlt : fLt p (toF cap) = true) :
    ∃ i0 : Nat, floorI p = some (i0 : Int) ∧ i0 < cap ∧ (if i0 + 1 = cap then 0 else i0 + 1) < cap ∧
      readDelayed cap m p = .ok (lerp (m.read i0) (m.read (if i0 + 1 = cap then 0 else i0 + 1)) (fSub p (toF i0))) := by
  obtain ⟨hp, i0, hi, hfloor⟩ := exists_floor_of_position hcap h0 hlt
  have hi1 : (if i0 + 1 = cap then 0 else i0 + 1) < cap := by split <;> omega
  refine ⟨i0, by rw [floorI_of_finite hp, hfloor], hi, hi1, ?_⟩
  simp only [readDelayed, split_of_floor hp hfloor, memRead_of_lt hi, memRead_of_lt hi1]

theorem Memory.read_write (hm : m.wf = true) (i : Nat) (v : Word) (j : Nat) :
    (m.write i v).read j = if j = i then v else m.read j := by
  split
  next h => rw [h, Memory.read_write_self hm]
  next h => exact Memory.read_write_other m v h

theorem runLane_of_read {dry fb gain mix y : Word} (hwh : wh < cap)
    (hread : readDelayed cap (m.write wh (fbSum dry fb)) (readPos cap wh d) = .ok y) :
    runLane cap wh m dry fb d gain mix =
      .ok { buf := m.write wh (fbSum dry fb), fb := fbUpdate y gain, out := xfade dry y mix } := by
  simp only [runLane, bufWrite, memWrite_of_lt _ hwh, hread]

/-- With its delay clamped and the write head inside the ring, a lane completes and does steps 4 to 8 of R203. -/
theorem runLane_completes (hwh : wh < cap) (hcap : cap ≤ 2 ^ 24) (hm : m.wf = true) (dry fb seconds sr gain mix : Word) :
    ∃ r, runLane cap wh m dry fb (toSamples cap seconds sr).1 gain mix = .ok r ∧
      LaneFrame cap wh m dry fb (toSamples cap seconds sr).1 gain mix r.buf r.fb r.out := by
  obtain ⟨hnan, hlow, hhigh⟩ := dclamp_in_ring hcap (fMul seconds sr)
  obtain ⟨h0, hlt, -⟩ := readPositionStaysInTheRing cap wh _ hwh hcap hnan hlow hhigh
  obtain ⟨i0, hfloor, hi0, hi1, hread⟩ := readDelayed_of_position (m := m.write wh (fbSum dry fb)) hcap h0 hlt
  refine ⟨_, runLane_of_read hwh hread, ?_⟩
  exact ⟨_, _, _, _, _, _, _, _, _, i0, _, Memory.read_write hm _ _, rfl, rfl, rfl, hfloor, hi0, rfl, hi1,
    rfl, rfl, rfl, rfl, rfl, rfl, rfl, rfl⟩

end

/-! ### A frame of SAMPLE -/

/-- MAP in the range of the mode on the port, written out (R76, R141, R142). -/
theorem mapDelay_ofPort (m : BitVec 1) (depth v : Word) :
    mapDelay (delayRange (Mode.ofPort m)) depth v =
      fAdd (if m = 1#1 then flMin else chMin)
        (fDiv (fMul (fSub (if m = 1#1 then flMax else chMax) (if m = 1#1 then flMin else chMin)) (fAdd (fMul v depth) oneF))
          twoF) := by
  unfold Mode.ofPort
  split <;> rfl

/-- Below the last index the head moves on by one, and from the last index to 0 (R105). -/
theorem headAdvance_toNat_eq_ite {cap : BitVec 25} {wh : BitVec 24} (h : wh.toNat < cap.toNat) (hcap : cap.toNat ≤ 2 ^ 24) :
    (headAdvance cap wh).toNat = if wh.toNat + 1 = cap.toNat then 0 else wh.toNat + 1 := by
  rw [headAdvance_toNat h hcap]
  split
  next hlast => rw [hlast, Nat.mod_self]
  next hnext => exact Nat.mod_eq_of_lt (by omega)

/-- Both lanes complete, so the frame does, whatever its operands are (R203). -/
theorem sampleFrom_completes {o : SampleOperands} {vL vR : Word} {s : State} (hwh : s.wh.toNat < s.cap.toNat)
    (hcap : s.cap.toNat ≤ 2 ^ 24) (hwfL : s.bufL.wf = true) (hwfR : s.bufR.wf = true) :
    ∃ t, sampleFrom o vL vR s = .next t ∧
      LaneFrame s.cap.toNat s.wh.toNat s.bufL o.dryL s.fbL (toSamples s.cap.toNat t.smooth s.sr).1 o.feedback o.mix
        t.bufL t.fbL t.outL ∧
      LaneFrame s.cap.toNat s.wh.toNat s.bufR o.dryR s.fbR
        (toSamples s.cap.toNat (mapDelay (delayRange o.mode) o.depth vR) s.sr).1 o.feedback o.mix t.bufR t.fbR t.outR := by
  obtain ⟨l, hl, hframeL⟩ := runLane_completes hwh hcap hwfL o.dryL s.fbL
    (smoothStep s.smooth (mapDelay (delayRange o.mode) o.depth vL)) s.sr o.feedback o.mix
  obtain ⟨r, hr, hframeR⟩ := runLane_completes hwh hcap hwfR o.dryR s.fbR
    (mapDelay (delayRange o.mode) o.depth vR) s.sr o.feedback o.mix
  simp only [sampleFrom, hl, hr]
  exact ⟨_, rfl, hframeL, hframeR⟩

/-! ### The obligations -/

/-- Settles O19: a clamped delay keeps the read position in the ring, so both lanes complete; what they and the frame write are
the rule's own expressions, which the model names. -/
theorem sampleComputesOneStereoFrame : Obligations.SampleComputesOneStereoFrame := by
  refine ⟨fun s hp => execSample_of_unprepared hp, fun s hp hwh hcap hwfL hwfR => ?_⟩
  obtain ⟨t, ht, hframeL, hframeR⟩ := sampleFrom_completes hwh hcap hwfL hwfR
  obtain ⟨l, r, -, -, rfl⟩ := sampleFrom_next ht
  simp only [← mapDelay_ofPort]
  exact ⟨_, (execSample_of_prepared hp).trans ht, hframeL, hframeR, rfl, rfl, headAdvance_toNat_eq_ite hwh hcap, rfl,
    rfl, rfl, rfl, rfl, rfl, rfl, rfl, rfl, rfl, rfl⟩

/-- Settles O5: no command has the word, so it is executed as ILLEGAL, which raises ERR_CMD on the new levels. -/
theorem illegalWordSetsErrCmdOnly : Obligations.IllegalWordSetsErrCmdOnly :=
  fun _ _ _ hin hr hv hw => (step_of_accept hin hr hv).trans (acceptCommand_of_four_le hw)

/-- Settles O16: CAPCALC answers a capacity on a valid configuration only, so this PREPARE takes its other branch. -/
theorem prepareWithInvalidConfigurationLeavesUnprepared : Obligations.PrepareWithInvalidConfigurationLeavesUnprepared :=
  fun _ => execPrepare_of_invalid

/-- Settles O18: SAMPLE raises ERR_UNPREP before it touches the datapath. -/
theorem sampleWhileUnpreparedSetsErrUnprepOnly : Obligations.SampleWhileUnpreparedSetsErrUnprepOnly :=
  fun _ => execSample_of_unprepared

end Sys2Proof.Machine

/-! PROOFS. The events of a step: the nine things that one instant can do (R81, R200, R226, R236), each with the levels that cause it
and the state it leaves. The rules about the whole machine are read off them. -/

namespace Sys2Proof.Machine

/-! ### The levels that accept a command word -/

theorem Ports.accepts_iff {p : Ports} {w : Byte} :
    p.accepts w = true ↔ p.rst = false ∧ p.cmdValid = true ∧ p.cmd = w := by
  simp [Ports.accepts, and_assoc]

theorem Ports.rst_of_accepts {p : Ports} {w : Byte} (h : p.accepts w = true) : p.rst = false := (Ports.accepts_iff.mp h).1

/-- An instant accepts one command word at most. -/
theorem Ports.accepts_eq_of_accepts {p : Ports} {w : Byte} (h : p.accepts w = true) (v : Byte) :
    p.accepts v = decide (w = v) := by
  obtain ⟨hr, hv, rfl⟩ := Ports.accepts_iff.mp h
  rw [Bool.eq_iff_iff, Ports.accepts_iff, decide_eq_true_eq]
  exact ⟨fun ⟨_, _, h⟩ => h, fun h => ⟨hr, hv, h⟩⟩

theorem Ports.accepts_of_idle {p : Ports} (h : p.cmdValid = false) (w : Byte) : p.accepts w = false := by
  simp [Ports.accepts, h]

/-- A word of the reserved space is none of the four commands. -/
theorem Ports.accepts_of_four_le {p : Ports} (h : 4 ≤ p.cmd.toNat) {w : Byte} (hw : w.toNat < 4) : p.accepts w = false := by
  rw [← Bool.not_eq_true, Ports.accepts_iff]
  rintro ⟨-, -, rfl⟩
  exact absurd hw (Nat.not_lt.mpr h)

/-! ### The words that are no command -/

theorem four_le_of_decode_error {w : Byte} {r : DecodeReject} (h : decode w = .error r) : 4 ≤ w.toNat := by
  have hne : ∀ i, w ≠ encode i := fun i hi => by simp [decode_ok_iff.mpr hi] at h
  have hnop : w ≠ 0#8 := hne .nop
  have hprepare : w ≠ 1#8 := hne .prepare
  have hsample : w ≠ 2#8 := hne .sample
  have hclrerr : w ≠ 3#8 := hne .clrerr
  bv_omega

/-! ### The events -/

/-- What one step does from `s`: the event, by the levels that the step acts on, and the state it leaves. -/
inductive StepEvent (s : State) : State → Prop
  | reset (hr : s.nextPorts.rst = true) : StepEvent s (hardReset (takeInputs s))
  | idle (hr : s.nextPorts.rst = false) (hv : s.nextPorts.cmdValid = false) : StepEvent s (takeInputs s)
  | nop (ha : s.nextPorts.accepts 0x00#8 = true) : StepEvent s (takeInputs s)
  | prepared {c : Nat} (ha : s.nextPorts.accepts 0x01#8 = true)
      (hc : capCalc Config.hardware.capMaxOf s.nextPorts.cfgSampleRate s.nextPorts.cfgMaxDelay = some c) :
      StepEvent s (prepareValid c s.nextPorts.cfgSampleRate (takeInputs s))
  | invalid (ha : s.nextPorts.accepts 0x01#8 = true)
      (hc : capCalc Config.hardware.capMaxOf s.nextPorts.cfgSampleRate s.nextPorts.cfgMaxDelay = none) :
      StepEvent s (raiseError .cfg (prepareInvalid (takeInputs s)))
  | unprepared (ha : s.nextPorts.accepts 0x02#8 = true) (hp : s.prep = false) :
      StepEvent s (raiseError .unprep (takeInputs s))
  | frame {t : State} (ha : s.nextPorts.accepts 0x02#8 = true) (hp : s.prep = true)
      (ht : sampleFrom (SampleOperands.ofPorts s.nextPorts) (lfoValue Config.hardware.sine.fn s.phase)
        (lfoValue Config.hardware.sine.fn (phaseRight s.phase s.nextPorts.pPhaseOffset)) (takeInputs s) = .next t) :
      StepEvent s t
  | clrerr (ha : s.nextPorts.accepts 0x03#8 = true) : StepEvent s (takeInputs s).clearFlags
  | illegal (hr : s.nextPorts.rst = false) (hv : s.nextPorts.cmdValid = true) (hw : 4 ≤ s.nextPorts.cmd.toNat) :
      StepEvent s (raiseError .cmd (takeInputs s))

/-- The event of an accepted command. -/
theorem stepEvent_of_exec {s t : State} {i : Instr} (ha : s.nextPorts.accepts (encode i) = true)
    (h : exec i (takeInputs s) = .next t) : StepEvent s t := by
  cases i with
  | nop => cases h; exact .nop ha
  | prepare =>
    rcases execPrepare_cases (takeInputs s) with ⟨c, hc, he⟩ | ⟨hc, he⟩
    · cases he.symm.trans h
      exact .prepared ha hc
    · cases he.symm.trans h
      exact .invalid ha hc
  | sample =>
    rcases execSample_next h with ⟨hp, rfl⟩ | ⟨hp, hf⟩
    · exact .unprepared ha ((takeInputs_prep s).symm.trans hp)
    · rw [takeInputs_phase] at hf
      exact .frame ha ((takeInputs_prep s).symm.trans hp) hf
  | clrerr => cases h; exact .clrerr ha

theorem stepEvent_of_step {s t : State} (h : step s = .next t) : StepEvent s t := by
  rcases step_cases h with ⟨hr, rfl⟩ | ⟨hr, hv, rfl⟩ | ⟨hr, hv, ⟨i, hd, he⟩ | ⟨r, hd, rfl⟩⟩
  · exact .reset hr
  · exact .idle hr hv
  · exact stepEvent_of_exec (Ports.accepts_iff.mpr ⟨hr, hv, decode_ok_iff.mp hd⟩) he
  · exact .illegal hr hv (four_le_of_decode_error hd)

end Sys2Proof.Machine

/-! PROOFS. The whole-machine rules, read off the events of a step: what each event can change (R22 to R30, R220 to R237). -/

namespace Sys2Proof.Machine

/-! ### The configuration of a valid PREPARE -/

/-- CAPCALC answers the capacity that a configuration is valid for (R100). -/
theorem capCalc_of_configValid {capMax c : Nat} {sr md : Word} (h : ConfigValid capMax sr md c) :
    capCalc capMax sr md = some c := by
  obtain ⟨hsr, hsrPos, hmd, hmdPos, hprod, hge, hfloor, hle⟩ := h
  simp [capCalc, hsr, hsrPos, hmd, hmdPos, hprod, hge, hfloor, hle]

theorem not_configValid_of_capCalc_none {capMax : Nat} {sr md : Word} (h : capCalc capMax sr md = none) (c : Nat) :
    ¬ConfigValid capMax sr md c :=
  fun hv => by simp [capCalc_of_configValid hv] at h

/-! ### The clamp of a delay -/

/-- DCLAMP flags exactly the delays outside the ring (R146, R224). -/
theorem dclamp_snd_iff {cap : Nat} {x : Word} : (dclamp cap x).2 = true ↔ outsideRing cap x := by
  unfold dclamp outsideRing
  dsimp only
  split
  next hlow => simp only [Bool.or_eq_true] at hlow; exact ⟨fun _ => hlow.imp_right .inl, fun _ => rfl⟩
  next hlow =>
    simp only [Bool.or_eq_true, not_or] at hlow
    split
    next hhigh => exact ⟨fun _ => .inr (.inr hhigh), fun _ => rfl⟩
    next hhigh => exact ⟨fun h => absurd h Bool.false_ne_true, fun h => by simp [hlow, hhigh] at h⟩

theorem toSamples_snd_iff {cap : Nat} {seconds sr : Word} :
    (toSamples cap seconds sr).2 = true ↔ outsideRing cap (fMul seconds sr) := dclamp_snd_iff

/-! ### What a frame leaves as it is -/

section

variable {o : SampleOperands} {vL vR : Word} {s t : State} (ht : sampleFrom o vL vR s = .next t)

include ht

theorem sampleFrom_keeps_configuration : t.prep = s.prep ∧ t.sr = s.sr ∧ t.cap = s.cap := by
  obtain ⟨l, r, -, -, rfl⟩ := sampleFrom_next ht
  exact ⟨rfl, rfl, rfl⟩

theorem sampleFrom_keeps_errors :
    t.errUnprep = s.errUnprep ∧ t.errCmd = s.errCmd ∧ t.errCfg = s.errCfg ∧ t.faultRecord = s.faultRecord := by
  obtain ⟨l, r, -, -, rfl⟩ := sampleFrom_next ht
  exact ⟨rfl, rfl, rfl, rfl⟩

/-- `DSAT` after a frame: it was set, or a delay was outside the ring (R146, R224). -/
theorem sampleFrom_dsat_iff :
    t.dsat = true ↔ s.dsat = true ∨
      outsideRing s.cap.toNat (fMul (smoothStep s.smooth (mapDelay (delayRange o.mode) o.depth vL)) s.sr) ∨
      outsideRing s.cap.toNat (fMul (mapDelay (delayRange o.mode) o.depth vR) s.sr) := by
  obtain ⟨l, r, -, -, rfl⟩ := sampleFrom_next ht
  simp only [dsatAfter, Bool.or_eq_true, toSamples_snd_iff, or_assoc]

end

/-! ### The datapath under each event -/

/-- What R36 and R37 leave of the datapath registers and the outputs. -/
structure State.DatapathClear (t : State) : Prop where
  wh : t.wh = 0#24
  phase : t.phase = zeroF
  smooth : t.smooth = zeroF
  fbL : t.fbL = zeroF
  fbR : t.fbR = zeroF
  outL : t.outL = zeroF
  outR : t.outR = zeroF

/-- Two states with the same datapath registers, outputs and buffers. -/
structure DatapathHeld (s t : State) : Prop where
  wh : t.wh = s.wh
  phase : t.phase = s.phase
  smooth : t.smooth = s.smooth
  fbL : t.fbL = s.fbL
  fbR : t.fbR = s.fbR
  outL : t.outL = s.outL
  outR : t.outR = s.outR
  bufL : t.bufL = s.bufL
  bufR : t.bufR = s.bufR

section

variable {s t : State} (h : StepEvent s t)

include h

/-- At a reset and at a PREPARE. -/
theorem stepEvent_clears_datapath (hc : s.nextPorts.rst = true ∨ s.nextPorts.accepts 0x01#8 = true) : t.DatapathClear := by
  cases h with
  | reset | prepared | invalid => exact ⟨rfl, rfl, rfl, rfl, rfl, rfl, rfl⟩
  | idle hr hv => simp [hr, Ports.accepts_of_idle hv] at hc
  | nop ha | unprepared ha | frame ha | clrerr ha => simp [Ports.rst_of_accepts ha, Ports.accepts_eq_of_accepts ha] at hc
  | illegal hr _ hw => simp [hr, Ports.accepts_of_four_le hw] at hc

/-- At every other step but a SAMPLE while Prepared. -/
theorem stepEvent_holds_datapath (hr : s.nextPorts.rst = false) (ha : s.nextPorts.accepts 0x01#8 = false)
    (hs : s.nextPorts.accepts 0x02#8 = true → s.prep = false) : DatapathHeld s t := by
  cases h with
  | reset hr' => simp [hr] at hr'
  | prepared ha' | invalid ha' => simp [ha] at ha'
  | frame ha' hp => simp [hs ha'] at hp
  | idle | nop | unprepared | clrerr | illegal => constructor <;> simp

end

/-! ### The obligations -/

/-- Settles O20: of the events, only a reset and the two PREPAREs write these registers. -/
theorem onlyPrepareAndResetChangeTheConfiguration : Obligations.OnlyPrepareAndResetChangeTheConfiguration := by
  intro s t h hr ha
  cases stepEvent_of_step h with
  | reset hr' => simp [hr] at hr'
  | prepared ha' | invalid ha' => simp [ha] at ha'
  | frame _ _ ht => simpa using sampleFrom_keeps_configuration ht
  | idle | nop | unprepared | clrerr | illegal => simp

/-- Settles O21: the outputs are cleared and held with the rest of the datapath. -/
theorem outputsHoldBetweenFrames : Obligations.OutputsHoldBetweenFrames := by
  refine fun s t h => ⟨fun hc => ?_, fun hr ha hs => ?_⟩
  · have hclear := stepEvent_clears_datapath (stepEvent_of_step h) hc
    exact ⟨hclear.outL, hclear.outR⟩
  · have hheld := stepEvent_holds_datapath (stepEvent_of_step h) hr ha hs
    exact ⟨hheld.outL, hheld.outR⟩

/-- Settles O22: a reset and a PREPARE clear the datapath, and of the other events only a frame writes it. -/
theorem datapathChangesOnlyAtFramesPreparesAndResets : Obligations.DatapathChangesOnlyAtFramesPreparesAndResets := by
  refine fun s t h => ⟨fun hc => ?_, fun hr ha hs => ?_⟩
  · obtain ⟨hwh, hphase, hsmooth, hfbL, hfbR, -, -⟩ := stepEvent_clears_datapath (stepEvent_of_step h) hc
    exact ⟨hwh, hphase, hsmooth, hfbL, hfbR⟩
  · obtain ⟨hwh, hphase, hsmooth, hfbL, hfbR, -, -, hbufL, hbufR⟩ := stepEvent_holds_datapath (stepEvent_of_step h) hr ha hs
    exact ⟨hwh, hphase, hsmooth, hfbL, hfbR, hbufL, hbufR⟩

/-- Settles O23: only a reset and CLRERR clear a flag; a frame only adds to `DSAT`. -/
theorem flagsAreSticky : Obligations.FlagsAreSticky := by
  intro s t h hr ha
  cases stepEvent_of_step h with
  | reset hr' => simp [hr] at hr'
  | clrerr ha' => simp [ha] at ha'
  | frame _ _ ht =>
    obtain ⟨hu, hc, hg, -⟩ := sampleFrom_keeps_errors ht
    simp only [takeInputs_errUnprep, takeInputs_errCmd, takeInputs_errCfg] at hu hc hg
    exact ⟨hu.trans, hc.trans, hg.trans, fun hd => (sampleFrom_dsat_iff ht).mpr (.inl ((takeInputs_dsat s).trans hd))⟩
  | idle | nop | prepared | invalid | unprepared | illegal => simp +contextual

/-- Settles O24: each flag is written by one event only, and `DSAT` by a frame with a delay that DCLAMP flags. -/
theorem eachFlagIsSetByItsOwnEventOnly : Obligations.EachFlagIsSetByItsOwnEventOnly := by
  intro s t h
  cases stepEvent_of_step h with
  | unprepared ha hp => simp +contextual [ha, hp]
  | invalid ha hc => simp +contextual [ha, not_configValid_of_capCalc_none hc]
  | illegal hr hv hw => simp +contextual [Ports.accepts_iff, hr, hv, hw]
  | frame ha hp ht =>
    obtain ⟨hu, hc, hg, -⟩ := sampleFrom_keeps_errors ht
    have hd := sampleFrom_dsat_iff ht
    simp only [takeInputs_errUnprep, takeInputs_errCmd, takeInputs_errCfg, takeInputs_dsat, takeInputs_cap, takeInputs_sr,
      takeInputs_smooth] at hu hc hg hd
    refine ⟨by simp +contextual [hu], by simp +contextual [hc], by simp +contextual [hg], fun h0 h1 => ⟨ha, hp, ?_⟩⟩
    exact (hd.mp h1).resolve_left (by simp [h0])
  | reset | idle | nop | prepared | clrerr => simp +contextual

/-- Settles O25: the three raising events add their error, and no other event touches the record. -/
theorem faultRecordOnlyGrows : Obligations.FaultRecordOnlyGrows := by
  intro s t h
  cases stepEvent_of_step h with
  | frame _ _ ht =>
    obtain ⟨-, -, -, hrec⟩ := sampleFrom_keeps_errors ht
    exact .inl (hrec.trans (takeInputs_faultRecord s))
  | reset | idle | nop | prepared | invalid | unprepared | clrerr | illegal => simp

end Sys2Proof.Machine

/-! PROOFS. The encoding (R71 to R74), the command unit at one instant (R81, R200, R226, R236), the reset state (R36), the STATUS word
(R31, R220) and the output ports (R80). -/

namespace Sys2Proof.Machine

/-! ### The encoding -/

/-- Settles O2: both directions are the one equivalence of decoder and encoder. -/
theorem decodeAndEncodeAgree : Obligations.DecodeAndEncodeAgree :=
  ⟨fun _ => decode_ok_iff.mpr rfl, fun _ _ h => (decode_ok_iff.mp h).symm⟩

/-- Settles O3: the six rows are evaluated. -/
theorem tableWordsReadTheirCommands : Obligations.TableWordsReadTheirCommands := by
  unfold Obligations.TableWordsReadTheirCommands
  decide

/-! ### One instant -/

theorem acceptCommand_of_decode_ok {s : State} {i : Instr} (h : decode s.ports.cmd = .ok i) : acceptCommand s = exec i s := by
  simp only [acceptCommand, h]

theorem instant_of_rst {s : State} (h : s.ports.rst = true) : instant s = .next (hardReset s) := by
  simp [instant, h]

theorem instant_of_idle {s : State} (hr : s.ports.rst = false) (hv : s.ports.cmdValid = false) : instant s = .next s := by
  simp [instant, hr, hv]

theorem takeInputs_inputs (s : State) : (takeInputs s).inputs = s.inputs.tail := by
  cases hin : s.inputs with
  | nil => rw [takeInputs_nil hin]; exact hin
  | cons p rest => rw [takeInputs_cons hin]; rfl

theorem status_hardReset (s : State) : (hardReset s).status = 0x00#8 :=
  show State.reset.status = 0x00#8 by decide

/-- Settles O4: acceptance decodes the word on `cmd` and executes the command. -/
theorem stepRunsTheDecodedCommand : Obligations.StepRunsTheDecodedCommand :=
  fun _ _ _ _ hin hr hv hd => (step_of_accept hin hr hv).trans (acceptCommand_of_decode_ok hd)

/-- Settles O6: `rst` is tested before `cmd_valid`, and the reset state has the values of R36. -/
theorem resetOverridesEveryCommand : Obligations.ResetOverridesEveryCommand := by
  intro s hr
  refine ⟨hardReset (takeInputs s), instant_of_rst hr, rfl, rfl, rfl, rfl, rfl, rfl, rfl, rfl, rfl, rfl, rfl, rfl, rfl, rfl,
    status_hardReset _, ?_, fun i => ?_, fun i => ?_, rfl, takeInputs_inputs s, takeInputs_faultRecord s⟩
  · exact congrArg not hr
  · rw [hardReset_bufL, takeInputs_drawsUsed, Memory.read_unspecified]
  · rw [hardReset_bufR, takeInputs_drawsUsed, Memory.read_unspecified]

/-- Settles O7: with `rst` and `cmd_valid` at 0 the instant is idle, and with no input given `cmd_valid` is 0. -/
theorem idleInstantHoldsTheState : Obligations.IdleInstantHoldsTheState := by
  refine ⟨fun s p rest hin hr hv => ?_, fun s hin hr => ?_⟩
  · rw [step, takeInputs_cons hin]
    exact instant_of_idle hr hv
  · rw [step, takeInputs_nil hin]
    exact instant_of_idle hr rfl

/-! ### The reset state -/

/-- Settles O8: the state is written out with the values of R36, and its two memories have the draws 0 and 1. -/
theorem resetStateHasTheSpecifiedValues : Obligations.ResetStateHasTheSpecifiedValues :=
  ⟨rfl, rfl, rfl, rfl, rfl, rfl, rfl, rfl, rfl, rfl, rfl, rfl, rfl, rfl, rfl,
    0, 1, Nat.zero_ne_one, fun i => ⟨Memory.read_unspecified 0 i, Memory.read_unspecified 1 i⟩⟩

/-- Settles O9: the reset state is Unprepared, with two rings of capacity 0. -/
theorem resetMeetsThePreparedInvariant : Obligations.ResetMeetsThePreparedInvariant :=
  fun _ => .of_unprepared rfl rfl rfl (Memory.ring_unspecified 0) (Memory.ring_unspecified 1)

/-! ### The STATUS word -/

/-- The flag that STATUS shows at each bit (R31). -/
def State.statusBit (s : State) : Nat → Bool
  | 0 => s.prep
  | 1 => s.errUnprep
  | 2 => s.errCmd
  | 3 => s.errCfg
  | 4 => s.dsat
  | _ => false

theorem status_toNat_lt (s : State) : s.status.toNat < 2 ^ 5 := by
  unfold State.status
  generalize s.dsat = d, s.errCfg = g, s.errCmd = c, s.errUnprep = u, s.prep = p
  revert d g c u p
  decide

theorem status_getLsbD (s : State) (k : Nat) : s.status.getLsbD k = s.statusBit k := by
  match k with
  | 0 | 1 | 2 | 3 | 4 =>
    simp only [State.status, State.statusBit, BitVec.getLsbD_append, BitVec.getLsbD_ofBool]
    simp
  | k + 5 => exact Nat.testBit_lt_two_pow ((status_toNat_lt s).trans_le (Nat.pow_le_pow_right (by decide) (by omega)))

/-- Raising an error sets the bit of its code (R220). -/
theorem statusBit_raiseError (e : ErrorCause) (s : State) (k : Nat) :
    (raiseError e s).statusBit k = (s.statusBit k || k == e.code) := by
  match k with
  | 0 | 1 | 2 | 3 | 4 => cases e <;> simp [State.statusBit, ErrorCause.code]
  | k + 5 => cases e <;> simp [State.statusBit, ErrorCause.code]

/-- Settles O26: an error has one flag, which STATUS shows at the bit of its code. -/
theorem raisingAnErrorSetsItsStatusBitOnly : Obligations.RaisingAnErrorSetsItsStatusBitOnly := by
  refine fun e s => ⟨fun k => ?_, by cases e <;> rfl⟩
  rw [status_getLsbD, status_getLsbD, statusBit_raiseError]

/-- Settles O27: bits 0 to 4 one by one, and no bit above them. -/
theorem statusWordHasItsFields : Obligations.StatusWordHasItsFields := by
  refine fun s => ⟨status_getLsbD s 0, status_getLsbD s 1, status_getLsbD s 2, status_getLsbD s 3, status_getLsbD s 4, ?_⟩
  have hlt := status_toNat_lt s
  apply BitVec.eq_of_toNat_eq
  rw [BitVec.extractLsb_toNat, Nat.shiftRight_eq_div_pow, Nat.div_eq_of_lt hlt]
  rfl

/-! ### The output ports -/

/-- Settles O54: the outputs are defined as the registers they show. -/
theorem outputPortsShowTheState : Obligations.OutputPortsShowTheState := fun _ => rfl

end Sys2Proof.Machine

/-! PROOFS. The right channel's phase (R122) and the LFO value (R124, R125). -/

namespace Sys2Proof.Machine

/-! ### Intervals on exact values -/

theorem between_iff {lo x hi : Word} :
    between lo x hi = true ↔
      isNaN lo = false ∧ isNaN x = false ∧ isNaN hi = false ∧ units lo ≤ units x ∧ units x ≤ units hi := by
  rw [between, Bool.and_eq_true, fGe_iff, fGe_iff]
  exact ⟨fun ⟨⟨hx, hlo, h1⟩, hhi, _, h2⟩ => ⟨hlo, hx, hhi, h1, h2⟩,
    fun ⟨hlo, hx, hhi, h1, h2⟩ => ⟨⟨hx, hlo, h1⟩, hhi, hx, h2⟩⟩

/-- The closed unit interval. -/
theorem between_zeroF_oneF_iff {x : Word} :
    between zeroF x oneF = true ↔ isNaN x = false ∧ 0 ≤ units x ∧ units x ≤ units oneF := by
  rw [between_iff, units_zeroF]
  exact ⟨fun ⟨_, hx, _, h0, h1⟩ => ⟨hx, h0, h1⟩, fun ⟨hx, h0, h1⟩ => ⟨by decide, hx, by decide, h0, h1⟩⟩

theorem finite_of_between_words {lo x hi : Word} (hlo : isFinite lo = true) (hhi : isFinite hi = true)
    (h : between lo x hi = true) : isFinite x = true :=
  finite_of_between hlo hhi (units_bounds_of_between h).1 (units_bounds_of_between h).2

theorem between_unit_of_inUnit {x : Word} (h : inUnit x = true) : between zeroF x oneF = true := by
  obtain ⟨hn, h0, h1⟩ := inUnit_iff.mp h
  exact between_zeroF_oneF_iff.mpr ⟨hn, h0, h1.le⟩

/-! ### The right phase -/

/-- The sum is at most 2.0, so one subtraction leaves at most 1.0. -/
theorem between_phaseRight {phase offset : Word} (hp : inUnit phase = true) (ho : between zeroF offset oneF = true) :
    between zeroF (phaseRight phase offset) oneF = true := by
  have htwo : units twoF = units oneF + units oneF := by decide +kernel
  have hfp := finite_of_inUnit hp
  have hfo := finite_of_between_words (by decide) (by decide) ho
  obtain ⟨-, hp0, hp1⟩ := inUnit_iff.mp hp
  obtain ⟨-, ho0, ho1⟩ := between_zeroF_oneF_iff.mp ho
  have hlo : units zeroF ≤ units (fAdd phase offset) := le_units_fAdd hfp hfo (by decide) (by rw [units_zeroF]; omega)
  have hhi : units (fAdd phase offset) ≤ units twoF := units_fAdd_le hfp hfo (by decide) (by omega)
  have hfin : isFinite (fAdd phase offset) = true := finite_of_between (by decide) (by decide) hlo hhi
  obtain ⟨hn, h0, h1⟩ := wrapPhase_bounds (c := oneF) hfin (by decide) (units_zeroF ▸ hlo) (htwo ▸ hhi)
  exact between_zeroF_oneF_iff.mpr ⟨hn, h0, h1.elim id le_of_lt⟩

/-! ### The LFO value -/

section

variable {phase : Word}

/-- The argument of the sine for a phase in [0, 1]. -/
theorem lfo_argument_bounds (h : between zeroF phase oneF = true) :
    isFinite (fMul twoPi phase) = true ∧ 0 ≤ units (fMul twoPi phase) ∧ units (fMul twoPi phase) ≤ units twoPi := by
  have hpi : isFinite twoPi = true := by decide
  have hpi0 : 0 ≤ units twoPi := units_nonneg_of_signBit (by decide)
  have hf := finite_of_between_words (by decide) (by decide) h
  obtain ⟨-, h0, h1⟩ := between_zeroF_oneF_iff.mp h
  have hlo : units zeroF ≤ units (fMul twoPi phase) :=
    le_units_fMul hpi hf (by decide) (by rw [units_zeroF, zero_mul]; exact mul_nonneg hpi0 h0)
  have hhi : units (fMul twoPi phase) ≤ units twoPi :=
    units_fMul_le hpi hf (by decide) (mul_le_mul_of_nonneg_left (units_oneF ▸ h1) hpi0)
  exact ⟨finite_of_between (by decide) hpi hlo hhi, units_zeroF ▸ hlo, hhi⟩

/-- A product with a word that is not finite is not finite. -/
theorem isFinite_fMul_of_right {a b : Word} (h : isFinite b = false) : isFinite (fMul a b) = false := by
  have hinf : ∀ neg, isFinite (infinity neg) = false := by decide
  have hnan : isFinite canonicalNaN = false := by decide
  cases hb : isNaN b with
  | true => simp [fMul, hb, hnan]
  | false =>
    have hi : isInf b = true := (finite_or_inf hb).resolve_left (by simp [h])
    simp only [fMul, hb, hi, Bool.or_true, Bool.or_false, if_true]
    split_ifs
    · exact hnan
    · exact hnan
    · exact hinf _

theorem value_nonneg_iff {w : Word} : 0 ≤ value w ↔ 0 ≤ units w := by
  rw [← value_zeroF, value_le_value_iff, units_zeroF]

end

/-! ### The obligations -/

/-- Settles O40: the end 1.0 is included, since a sum just below 2.0 can round to it. -/
theorem rightPhaseStaysInTheClosedUnitInterval : Obligations.RightPhaseStaysInTheClosedUnitInterval :=
  fun _ _ => between_phaseRight

/-- Refutes O41: the largest phase below 1.0 and the offset 1.0 sum to 2.0 after rounding, and one subtraction leaves 1.0. -/
theorem not_rightPhaseStaysBelowOne : ¬ Obligations.RightPhaseStaysBelowOne := by
  intro h
  have hend : phaseRight 0x3F7FFFFF#32 oneF = oneF := by decide +kernel
  have hbelow := h 0x3F7FFFFF#32 oneF (by decide) (by decide)
  rw [hend] at hbelow
  exact absurd hbelow (by decide)

/-- Settles O42: `TWO_PI` times a phase in [0, 1] does not pass `TWO_PI`, and the rest is S1 to S4 of the sine unit. -/
theorem lfoValueIsASineOfThePhase : Obligations.LfoValueIsASineOfThePhase := by
  refine ⟨fun phase h => ?_, ?_, fun phase h => Config.hardware.sine.nonFinite _ (isFinite_fMul_of_right h)⟩
  · obtain ⟨hf, h0, h1⟩ := lfo_argument_bounds h
    have hv0 := value_nonneg_iff.mpr h0
    have hv1 := value_le_value_iff.mpr h1
    obtain ⟨hfv, hlo, hhi⟩ := Config.hardware.sine.range _ hf
    exact ⟨hf, hv0, hv1, hfv, hlo, hhi, Config.hardware.sine.accuracy _ hf hv0 hv1⟩
  · have hx : fMul twoPi zeroF = zeroF := by decide +kernel
    rw [lfoValue, hx]
    exact Config.hardware.sine.zero.1

end Sys2Proof.Machine

/-! PROOFS. The smoother of R144 moves towards its target and not past it (R147), and DCLAMP keeps a delay in the ring (R146, R148). -/

namespace Sys2Proof.Machine

/-! ### A sum from below -/

/-- A magnitude's bits above zero have bits with at least half the magnitude just below. -/
theorem magUnits_succ_le_two_mul {m : Nat} (h : 0 < m) : magUnits (m + 1) ≤ 2 * magUnits m := by
  obtain ⟨sh, n, rfl, hn, hs⟩ := bits_significand m
  rw [Nat.add_assoc, magUnits_significand (by omega) (by omega), magUnits_significand hn.le hs, ← mul_assoc]
  exact Nat.mul_le_mul_right _ (by omega)

/-- A rounded integer is at most twice a representable magnitude that does not pass the integer: the one just below the rounding,
or the rounding itself when it is one unit. -/
theorem exists_magUnits_le_half_roundMag (x : Nat) :
    ∃ q, q ≤ roundMag x 1 ∧ magUnits q ≤ x ∧ magUnits (roundMag x 1) ≤ 2 * magUnits q := by
  have hbelow : ∀ q, q < roundMag x 1 → magUnits q ≤ x := fun q hq => by
    by_contra hlt
    exact absurd (roundMag_le (c := q) Nat.one_pos (by omega)) (Nat.not_le.mpr hq)
  match hp : roundMag x 1 with
  | 0 => exact ⟨0, le_rfl, by simp, by simp⟩
  | 1 =>
    have hone : magUnits 1 = 1 := by decide
    have hx : x ≠ 0 := fun h => by simp [h] at hp
    exact ⟨1, le_rfl, by omega, by omega⟩
  | q + 2 => exact ⟨q + 1, by omega, hbelow _ (by omega), magUnits_succ_le_two_mul (by omega)⟩

/-- A finite rounded sum is at most twice, in magnitude, a word whose magnitude does not pass the exact sum. -/
theorem exists_word_le_sum {a b : Word} (ha : isFinite a = true) (hb : isFinite b = true) :
    ∃ c, isNaN c = false ∧ units c ≤ |units a + units b| ∧ |units (fAdd a b)| ≤ 2 * units c := by
  obtain ⟨q, hq, hle, hhalf⟩ := exists_magUnits_le_half_roundMag (units a + units b).natAbs
  have hinf := hq.trans (roundMag_le_infBits _ 1)
  have hword : q < 2 ^ 31 := hinf.trans_lt (by decide)
  have hc : units (packWord false q) = magUnits q := by rw [units_packWord hword, if_neg Bool.false_ne_true]
  refine ⟨packWord false q, ?_, ?_, ?_⟩
  · rw [isNaN_eq_false_iff, magBits_packWord hword]
    exact hinf
  · rw [hc, Int.abs_eq_natAbs]
    exact_mod_cast hle
  · rw [hc, Int.abs_eq_natAbs, units_fAdd_eq ha hb, natAbs_units, magBits_roundWord]
    exact_mod_cast hhalf

/-! ### The correction of the smoother -/

/-- `K` is a weight. -/
theorem isFinite_fMul_smoothK {d : Word} (hd : isFinite d = true) : isFinite (fMul smoothK d) = true :=
  IsWeight.isFinite_fMul ⟨by decide, units_nonneg_of_signBit (by decide), by decide +kernel⟩ hd

section

variable {smooth target : Word} (hs : isFinite smooth = true) (ht : isFinite target = true)
  (hd : isFinite (fSub smooth target) = true)

include hs ht hd

/-- The correction does not pass the exact difference of state and target in magnitude: `K` is below a half. -/
theorem abs_correction_le : |units (fMul smoothK (fSub smooth target))| ≤ |units smooth - units target| := by
  obtain ⟨c, hc, hle, hhalf⟩ := exists_word_le_sum hs (b := fNeg target) (by rwa [isFinite_fNeg])
  have hK : isFinite smoothK = true := by decide
  have hK0 : 0 ≤ units smoothK := units_nonneg_of_signBit (by decide)
  have hK2 : units smoothK * 2 ≤ 2 ^ 149 := by decide +kernel
  have hc0 : 0 ≤ units c := by have := (abs_nonneg _).trans hhalf; omega
  have hprod : |units smoothK * units (fSub smooth target)| ≤ units c * 2 ^ 149 :=
    calc |units smoothK * units (fSub smooth target)| = units smoothK * |units (fSub smooth target)| := by
          rw [abs_mul, abs_of_nonneg hK0]
      _ ≤ units smoothK * (2 * units c) := mul_le_mul_of_nonneg_left hhalf hK0
      _ = units c * (units smoothK * 2) := by ring
      _ ≤ units c * 2 ^ 149 := mul_le_mul_of_nonneg_left hK2 hc0
  obtain ⟨hlo, hhi⟩ := abs_le.mp hprod
  have hlower := le_units_fMul (c := fNeg c) hK hd (by rwa [isNaN_fNeg]) (by rwa [units_fNeg, neg_mul])
  have hupper := units_fMul_le hK hd hc hhi
  rw [units_fNeg] at hlower hle
  rw [sub_eq_add_neg]
  exact (abs_le.mpr ⟨hlower, hupper⟩).trans hle

theorem correction_nonneg (h : units target ≤ units smooth) : 0 ≤ units (fMul smoothK (fSub smooth target)) := by
  have hK0 : 0 ≤ units smoothK := units_nonneg_of_signBit (by decide)
  have hd0 : units zeroF ≤ units (fSub smooth target) := le_units_fSub hs ht (by decide) (by rw [units_zeroF]; omega)
  rw [units_zeroF] at hd0
  rw [← units_zeroF]
  exact le_units_fMul (by decide) hd (by decide) (by rw [units_zeroF, zero_mul]; exact mul_nonneg hK0 hd0)

theorem correction_nonpos (h : units smooth ≤ units target) : units (fMul smoothK (fSub smooth target)) ≤ 0 := by
  have hK0 : 0 ≤ units smoothK := units_nonneg_of_signBit (by decide)
  have hd0 : units (fSub smooth target) ≤ units zeroF := units_fSub_le hs ht (by decide) (by rw [units_zeroF]; omega)
  rw [units_zeroF] at hd0
  rw [← units_zeroF]
  exact units_fMul_le (by decide) hd (by decide)
    (by rw [units_zeroF, zero_mul]; exact mul_nonpos_of_nonneg_of_nonpos hK0 hd0)

/-- R147 (a) downwards. -/
theorem between_smoothStep_of_ge (h : units target ≤ units smooth) :
    between target (smoothStep smooth target) smooth = true := by
  have hf := isFinite_fMul_smoothK hd
  have h0 := correction_nonneg hs ht hd h
  have hle := (le_abs_self _).trans (abs_correction_le hs ht hd)
  rw [abs_of_nonneg (sub_nonneg.mpr h)] at hle
  have hns := isNaN_eq_false_of_finite hs
  have hnt := isNaN_eq_false_of_finite ht
  exact between_iff.mpr ⟨hnt, isNaN_fSub_finite hs hf, hns, le_units_fSub hs hf hnt (by omega), units_fSub_le hs hf hns (by omega)⟩

/-- R147 (a) upwards. -/
theorem between_smoothStep_of_le (h : units smooth ≤ units target) :
    between smooth (smoothStep smooth target) target = true := by
  have hf := isFinite_fMul_smoothK hd
  have h0 := correction_nonpos hs ht hd h
  have hle := (neg_le_abs _).trans (abs_correction_le hs ht hd)
  rw [abs_of_nonpos (sub_nonpos.mpr h)] at hle
  have hns := isNaN_eq_false_of_finite hs
  have hnt := isNaN_eq_false_of_finite ht
  exact between_iff.mpr ⟨hns, isNaN_fSub_finite hs hf, hnt, le_units_fSub hs hf hns (by omega), units_fSub_le hs hf hnt (by omega)⟩

end

/-- The smoother stays in a range of finite bounds, not negative, that its state and its target lie in (R147). -/
theorem between_smoothStep {lo hi smooth target : Word} (hlo : isFinite lo = true) (hlo0 : 0 ≤ units lo)
    (hhi : isFinite hi = true) (hs : between lo smooth hi = true) (ht : between lo target hi = true) :
    between lo (smoothStep smooth target) hi = true := by
  have hfs := finite_of_between_words hlo hhi hs
  have hft := finite_of_between_words hlo hhi ht
  obtain ⟨hnlo, -, hnhi, hs1, hs2⟩ := between_iff.mp hs
  obtain ⟨-, -, -, ht1, ht2⟩ := between_iff.mp ht
  have hd : isFinite (fSub smooth target) = true :=
    finite_of_between (a := fNeg hi) (by rwa [isFinite_fNeg]) hhi
      (le_units_fSub hfs hft (by rwa [isNaN_fNeg]) (by rw [units_fNeg]; omega)) (units_fSub_le hfs hft hnhi (by omega))
  rcases le_total (units target) (units smooth) with h | h
  · obtain ⟨-, hn, -, h1, h2⟩ := between_iff.mp (between_smoothStep_of_ge hfs hft hd h)
    exact between_iff.mpr ⟨hnlo, hn, hnhi, ht1.trans h1, h2.trans hs2⟩
  · obtain ⟨-, hn, -, h1, h2⟩ := between_iff.mp (between_smoothStep_of_le hfs hft hd h)
    exact between_iff.mpr ⟨hnlo, hn, hnhi, hs1.trans h1, h2.trans ht2⟩

/-! ### TO_SAMPLES -/

/-- A delay that DCLAMP does not flag is unchanged (R146). -/
theorem dclamp_of_inside {cap : Nat} {x : Word} (h : ¬outsideRing cap x) : dclamp cap x = (x, false) := by
  obtain ⟨hn, h0, hhi⟩ : isNaN x = false ∧ fLt x zeroF = false ∧ fGt x (toF (cap - 1)) = false := by
    simpa [outsideRing] using h
  simp [dclamp, hn, h0, hhi]

/-- A value between zero and the largest delay is inside the ring. -/
theorem not_outsideRing_of_between {cap : Nat} {x : Word} (h : between zeroF x (toF (cap - 1)) = true) :
    ¬outsideRing cap x := by
  obtain ⟨-, hn, -, h0, h1⟩ := between_iff.mp h
  rintro (h | h | h)
  · simp [hn] at h
  · obtain ⟨-, -, h⟩ := fLt_iff.mp h; omega
  · obtain ⟨-, -, h⟩ := fGt_iff.mp h; omega

/-- A time in [0, hi] times a positive rate is between zero and `hi` times that rate. -/
theorem between_fMul_of_between {x hi r : Word} (hhi : isFinite hi = true) (hr : isFinite r = true) (hr0 : 0 ≤ units r)
    (h : between zeroF x hi = true) : between zeroF (fMul x r) (fMul hi r) = true := by
  have hfx := finite_of_between_words (by decide) hhi h
  obtain ⟨-, -, -, h0, h1⟩ := between_iff.mp h
  rw [units_zeroF] at h0
  refine between_iff.mpr ⟨by decide, isNaN_fMul_finite hfx hr, isNaN_fMul_finite hhi hr, ?_, ?_⟩
  · exact le_units_fMul hfx hr (by decide) (by rw [units_zeroF, zero_mul]; exact mul_nonneg h0 hr0)
  · exact units_fMul_mono hfx hr hhi hr (mul_le_mul_of_nonneg_right h1 hr0)

/-! ### The obligations -/

/-- Settles O44: the correction is `K` times the rounded difference, which is at most twice a word that the exact difference
reaches, so it does not pass the exact difference, nor does the rounded new state the target. -/
theorem smootherNeverOvershootsAFiniteDifference : Obligations.SmootherNeverOvershootsAFiniteDifference := by
  refine fun smooth target hs ht hd => ⟨fun h => ?_, fun h => ?_⟩
  · obtain ⟨-, -, hle⟩ := fGe_iff.mp h
    exact between_smoothStep_of_ge hs ht hd hle
  · obtain ⟨-, -, hle⟩ := fGe_iff.mp h
    exact between_smoothStep_of_le hs ht hd hle

/-- Refutes O45: from the largest finite value towards its negative the difference overflows, and the smoother lands at minus
infinity. -/
theorem not_smootherNeverOvershootsAnyFiniteTarget : ¬ Obligations.SmootherNeverOvershootsAnyFiniteTarget := by
  intro h
  have hland : smoothStep 0x7F7FFFFF#32 0xFF7FFFFF#32 = infinity true := by decide +kernel
  have hbetween := h 0x7F7FFFFF#32 0xFF7FFFFF#32 (by decide) (by decide) (by decide +kernel)
  rw [hland] at hbetween
  exact absurd hbetween (by decide +kernel)

/-- Settles O46: each branch of DCLAMP answers a value of the ring, and its flag is the test that chose the branch. -/
theorem clampedDelayFitsTheRing : Obligations.ClampedDelayFitsTheRing := by
  intro cap x _ hcap
  obtain ⟨hn, h0, htop⟩ := dclamp_in_ring hcap x
  have hfin : isFinite (toF (cap - 1)) = true := (units_toF ((Nat.sub_le _ _).trans hcap)).1
  have hnt := isNaN_eq_false_of_finite hfin
  refine ⟨fGe_iff.mpr ⟨hn, by decide, units_le_of_fLt_eq_false hn (by decide) h0⟩,
    fGe_iff.mpr ⟨hnt, hn, units_le_of_fGt_eq_false hn hnt htop⟩, dclamp_snd_iff, fun h => ?_⟩
  rw [dclamp_of_inside (fun hout => by simp [dclamp_snd_iff.mpr hout] at h)]

/-- Settles O47: products with one positive rate are in the order of the times. -/
theorem delayWithinTheRingIsNotClamped : Obligations.DelayWithinTheRingIsNotClamped := by
  intro cap seconds hi sr _ hhi hsr hpos hbetween htop
  obtain ⟨-, -, hpos⟩ := fGt_iff.mp hpos
  obtain ⟨hntop, -, htop⟩ := fGe_iff.mp htop
  obtain ⟨hnz, hn, -, h0, h1⟩ := between_iff.mp (between_fMul_of_between hhi hsr (units_zeroF ▸ hpos.le) hbetween)
  exact dclamp_of_inside (not_outsideRing_of_between (between_iff.mpr ⟨hnz, hn, hntop, h0, h1.trans htop⟩))

end Sys2Proof.Machine

/-! PROOFS. Bounds that hold along every run (R40, R185): magnitudes through a sum, a product, the interpolator and one lane, and from
there through a frame of SAMPLE and every step. -/

namespace Sys2Proof.Machine

/-! ### Magnitudes -/

theorem withinMag_iff {b x : Word} :
    withinMag b x = true ↔ isNaN b = false ∧ isNaN x = false ∧ |units x| ≤ units b := by
  rw [withinMag, between_iff, isNaN_fNeg, units_fNeg, abs_le]
  exact ⟨fun ⟨hb, hx, _, h⟩ => ⟨hb, hx, h⟩, fun ⟨hb, hx, h⟩ => ⟨hb, hx, hb, h⟩⟩

theorem withinMag_zeroF {b : Word} (hb : isNaN b = false) (h0 : 0 ≤ units b) : withinMag b zeroF = true :=
  withinMag_iff.mpr ⟨hb, by decide, by rwa [units_zeroF, abs_zero]⟩

theorem finite_of_withinMag {b x : Word} (hb : isFinite b = true) (h : withinMag b x = true) : isFinite x = true :=
  finite_of_between_words (by rwa [isFinite_fNeg]) hb h

/-- A bound of a magnitude is not negative. -/
theorem units_nonneg_of_withinMag {b x : Word} (h : withinMag b x = true) : 0 ≤ units b := by
  obtain ⟨-, -, h⟩ := withinMag_iff.mp h
  exact (abs_nonneg _).trans h

theorem withinMag_of_between_zeroF {b x : Word} (h : between zeroF x b = true) : withinMag b x = true := by
  obtain ⟨-, hx, hb, h0, h1⟩ := between_iff.mp h
  exact withinMag_iff.mpr ⟨hb, hx, by rwa [abs_of_nonneg (units_zeroF ▸ h0)]⟩

/-! ### Magnitudes through the operations: rounding is symmetric about zero -/

theorem signedNum_not (neg : Bool) (n : Nat) : signedNum (!neg) n = -signedNum neg n := by
  cases neg <;> simp [signedNum]

theorem units_fMul_fNeg_left {a b : Word} (ha : isFinite a = true) (hb : isFinite b = true) :
    units (fMul (fNeg a) b) = -units (fMul a b) := by
  rw [fMul_finite ha hb, fMul_finite (by rwa [isFinite_fNeg]) hb, units_roundWord, units_roundWord, units_fNeg, Int.natAbs_neg,
    signBit_fNeg, Bool.not_bne, signedNum_not]

theorem units_fAdd_fNeg_fNeg {a b : Word} (ha : isFinite a = true) (hb : isFinite b = true) :
    units (fAdd (fNeg a) (fNeg b)) = -units (fAdd a b) := by
  rw [units_fAdd_eq ha hb, units_fAdd_eq (by rwa [isFinite_fNeg]) (by rwa [isFinite_fNeg]), units_roundWord, units_roundWord,
    units_fNeg, units_fNeg, ← neg_add, Int.natAbs_neg]
  rcases eq_or_ne (units a + units b) 0 with h | h
  · rw [h, Int.natAbs_zero, roundMag_zero Nat.one_pos, magUnits_zero]
    rfl
  · rw [show decide (-(units a + units b) < 0) = !decide (units a + units b < 0) by
      rw [← decide_not, decide_eq_decide]; omega, signedNum_not]

theorem fMul_comm (a b : Word) : fMul a b = fMul b a := by
  simp only [fMul, Bool.or_comm (isNaN a), Bool.or_comm (isInf a), Bool.or_comm (isZero a), Nat.mul_comm (units a).natAbs,
    bne_comm (a := signBit a)]

section

variable {b c x y : Word} (hb : isFinite b = true) (hc : isFinite c = true) (hx : withinMag b x = true)
  (hy : withinMag c y = true)

include hb hc hx hy

theorem withinMag_fMul : withinMag (fMul b c) (fMul x y) = true := by
  have hfx := finite_of_withinMag hb hx
  have hfy := finite_of_withinMag hc hy
  obtain ⟨-, -, hx⟩ := withinMag_iff.mp hx
  obtain ⟨-, -, hy⟩ := withinMag_iff.mp hy
  have hprod : |units x * units y| ≤ units b * units c := by
    rw [abs_mul]
    exact mul_le_mul hx hy (abs_nonneg _) ((abs_nonneg _).trans hx)
  obtain ⟨hlo, hhi⟩ := abs_le.mp hprod
  refine withinMag_iff.mpr ⟨isNaN_fMul_finite hb hc, isNaN_fMul_finite hfx hfy,
    abs_le.mpr ⟨?_, units_fMul_mono hfx hfy hb hc hhi⟩⟩
  rw [← units_fMul_fNeg_left hb hc]
  exact units_fMul_mono (by rwa [isFinite_fNeg]) hc hfx hfy (by rwa [units_fNeg, neg_mul])

theorem withinMag_fAdd : withinMag (fAdd b c) (fAdd x y) = true := by
  have hfx := finite_of_withinMag hb hx
  have hfy := finite_of_withinMag hc hy
  obtain ⟨-, -, hx⟩ := withinMag_iff.mp hx
  obtain ⟨-, -, hy⟩ := withinMag_iff.mp hy
  obtain ⟨hlo, hhi⟩ := abs_le.mp ((abs_add_le (units x) (units y)).trans (add_le_add hx hy))
  refine withinMag_iff.mpr ⟨isNaN_fAdd_finite hb hc, isNaN_fAdd_finite hfx hfy,
    abs_le.mpr ⟨?_, units_fAdd_mono hfx hfy hb hc hhi⟩⟩
  rw [← units_fAdd_fNeg_fNeg hb hc]
  exact units_fAdd_mono (by rwa [isFinite_fNeg]) (by rwa [isFinite_fNeg]) hfx hfy (by rwa [units_fNeg, units_fNeg, ← neg_add])

end

theorem withinMag_of_fGe {b c x : Word} (h : fGe c b = true) (hx : withinMag b x = true) : withinMag c x = true := by
  obtain ⟨hc, -, hle⟩ := fGe_iff.mp h
  obtain ⟨-, hn, hx⟩ := withinMag_iff.mp hx
  exact withinMag_iff.mpr ⟨hc, hn, hx.trans hle⟩

/-- A zero summand keeps a magnitude. -/
theorem withinMag_fAdd_zero_left {b z x : Word} (hz : isZero z = true) (hx : withinMag b x = true) :
    withinMag b (fAdd z x) = true := by
  obtain ⟨hb, hn, hx⟩ := withinMag_iff.mp hx
  exact withinMag_iff.mpr ⟨hb, isNaN_fAdd_zero_left hz hn, by rwa [units_fAdd_zero_left hz hn]⟩

/-- The interpolator stays between two words, so within their common bound. -/
theorem withinMag_lerp {b x0 x1 frac : Word} (hb : isFinite b = true) (hf : inUnit frac = true) (h0 : withinMag b x0 = true)
    (h1 : withinMag b x1 = true) : withinMag b (lerp x0 x1 frac) = true := by
  have hi1 := isInf_eq_false_of_finite (finite_of_withinMag hb h1)
  obtain ⟨hnb, hn0, h0⟩ := withinMag_iff.mp h0
  obtain ⟨-, hn1, h1⟩ := withinMag_iff.mp h1
  have hn : isNaN (lerp x0 x1 frac) = false := by
    rw [← Bool.not_eq_true, isNaN_lerp_iff hf hn0 hn1]
    simp [hi1]
  obtain ⟨-, -, -, hlo, hhi⟩ := between_iff.mp (between_lerp hn0 hn1 hn)
  have hmin : -units b ≤ units (fMin x0 x1) := by unfold fMin; split <;> [exact (abs_le.mp h0).1; exact (abs_le.mp h1).1]
  have hmax : units (fMax x0 x1) ≤ units b := by unfold fMax; split <;> [exact (abs_le.mp h0).2; exact (abs_le.mp h1).2]
  exact withinMag_iff.mpr ⟨hnb, hn, abs_le.mpr ⟨hmin.trans hlo, hhi.trans hmax⟩⟩

/-! ### One lane -/

theorem value_oneF : value oneF = 1 := by
  rw [value, units_oneF]
  push_cast
  exact div_self (by positivity)

theorem inUnit_of_value {f : Word} (hf : isFinite f = true) (h0 : 0 ≤ value f) (h1 : value f < 1) : inUnit f = true :=
  inUnit_iff.mpr ⟨isNaN_eq_false_of_finite hf, value_nonneg_iff.mp h0, value_lt_value_iff.mp (value_oneF ▸ h1)⟩

section

variable {cap wh : Nat} {m : Memory} {dry fb seconds sr gain mix : Word} {r : LaneResult} (hcap : cap ≤ 2 ^ 24)
  (h : runLane cap wh m dry fb (toSamples cap seconds sr).1 gain mix = .ok r)

include hcap h

/-- A lane with its delay clamped writes the sum at the write head, and its feedback is a blend of two words in use. -/
theorem runLane_toSamples_ok :
    r.buf = m.write wh (fAdd dry fb) ∧
      ∃ i0 i1 : Nat, ∃ frac, i0 < cap ∧ i1 < cap ∧ inUnit frac = true ∧
        r.fb = fMul (lerp (r.buf.read i0) (r.buf.read i1) frac) gain := by
  obtain ⟨hwh, y, hread, rfl⟩ := runLane_ok h
  obtain ⟨hnan, hlow, hhigh⟩ := dclamp_in_ring hcap (fMul seconds sr)
  obtain ⟨h0, hlt, -⟩ := readPositionStaysInTheRing cap wh _ hwh hcap hnan hlow hhigh
  obtain ⟨i0, i1, frac, hsplit, hi0, hi1, rfl⟩ := readDelayed_ok hread
  obtain ⟨j, f, hsplit', -, -, -, -, -, hfin, -, hf0, hf1⟩ := splitIsExactAndInBounds cap _ hcap h0 hlt
  obtain rfl : frac = f := congrArg (fun t => t.2.2) (Option.some.inj (hsplit.symm.trans hsplit'))
  exact ⟨rfl, i0, i1, frac, hi0, hi1, inUnit_of_value hfin hf0 hf1, rfl⟩

/-- With a write value within `b` and a gain within `g`, a lane keeps its words in use within `b` and answers a feedback within
`f_mul(b, g)`. -/
theorem runLane_bounded {b g : Word} (hb : isFinite b = true) (hg : isFinite g = true) (hwf : m.wf = true)
    (hm : ∀ i, i < cap → withinMag b (m.read i) = true) (hv : withinMag b (fAdd dry fb) = true)
    (hgain : withinMag g gain = true) :
    (∀ i, i < cap → withinMag b (r.buf.read i) = true) ∧ withinMag (fMul b g) r.fb = true := by
  obtain ⟨hbuf, i0, i1, frac, hi0, hi1, hfrac, hfb⟩ := runLane_toSamples_ok hcap h
  have hwords : ∀ i, i < cap → withinMag b (r.buf.read i) = true := by
    intro i hi
    rw [hbuf, Memory.read_write hwf]
    split
    · exact hv
    · exact hm i hi
  exact ⟨hwords, hfb ▸ withinMag_fMul hb hg (withinMag_lerp hb hfrac (hwords i0 hi0) (hwords i1 hi1)) hgain⟩

end

/-! ### A frame of SAMPLE -/

/-- The two rings hold words within `b` wherever they are in use. -/
def State.WordsWithin (b : Word) (s : State) : Prop :=
  (∀ i, i < s.cap.toNat → withinMag b (s.bufL.read i) = true) ∧ ∀ i, i < s.cap.toNat → withinMag b (s.bufR.read i) = true

/-- The two feedback registers are within `c`. -/
def State.FeedbackWithin (c : Word) (s : State) : Prop := withinMag c s.fbL = true ∧ withinMag c s.fbR = true

theorem State.bounded_iff {b : Word} {s : State} :
    s.Bounded b ↔ inUnit s.phase = true ∧ between zeroF s.smooth chMax = true ∧
      s.FeedbackWithin (fMul feedbackMax b) ∧ s.WordsWithin b := by
  simp only [State.Bounded, State.FeedbackWithin, State.WordsWithin, and_assoc]

theorem State.Inv.rings_wf {capMax : Nat} {s : State} (h : s.Inv capMax) : s.bufL.wf = true ∧ s.bufR.wf = true := by
  obtain ⟨-, -, hl, hr⟩ := h
  exact ⟨((Memory.ring_iff _ _).mp hl).1, ((Memory.ring_iff _ _).mp hr).1⟩

/-- While Prepared the write head is inside a ring of at most 2^24 words (R39). -/
theorem State.Inv.head_in_ring {s : State} (h : s.Inv Config.hardware.capMaxOf) (hp : s.prep = true) :
    s.wh.toNat < s.cap.toNat ∧ s.cap.toNat ≤ 2 ^ 24 := by
  obtain ⟨hprep, -⟩ := h
  obtain ⟨-, -, -, hcap, hw⟩ := hprep hp
  exact ⟨hw, hcap.trans (capMaxOf_le _)⟩

section

variable {o : SampleOperands} {vL vR b g : Word} {s t : State} (hinv : s.Inv Config.hardware.capMaxOf) (hp : s.prep = true)
  (ht : sampleFrom o vL vR s = .next t) (hb : isFinite b = true)

include hinv hp ht hb

/-- Both lanes of a frame are bounded. -/
theorem sampleFrom_bounded (hg : isFinite g = true) (hw : s.WordsWithin b) (hvL : withinMag b (fAdd o.dryL s.fbL) = true)
    (hvR : withinMag b (fAdd o.dryR s.fbR) = true) (hgain : withinMag g o.feedback = true) :
    t.WordsWithin b ∧ t.FeedbackWithin (fMul b g) := by
  obtain ⟨-, hcap⟩ := hinv.head_in_ring hp
  obtain ⟨hwfL, hwfR⟩ := hinv.rings_wf
  obtain ⟨hwL, hwR⟩ := hw
  obtain ⟨l, r, hl, hr, rfl⟩ := sampleFrom_next ht
  obtain ⟨hbufL, hfbL⟩ := runLane_bounded hcap hl hb hg hwfL hwL hvL hgain
  obtain ⟨hbufR, hfbR⟩ := runLane_bounded hcap hr hb hg hwfR hwR hvR hgain
  exact ⟨⟨hbufL, hbufR⟩, hfbL, hfbR⟩

/-- R185: zero inputs and a gain within 1.0. -/
theorem sampleFrom_silent (hL : isZero o.dryL = true) (hR : isZero o.dryR = true) (hgain : withinMag oneF o.feedback = true)
    (hw : s.WordsWithin b) (hfb : s.FeedbackWithin b) : t.WordsWithin b ∧ t.FeedbackWithin b := by
  obtain ⟨hfbL, hfbR⟩ := hfb
  have h := sampleFrom_bounded hinv hp ht hb (g := oneF) (by decide) hw (withinMag_fAdd_zero_left hL hfbL)
    (withinMag_fAdd_zero_left hR hfbR) hgain
  rwa [fMul_oneF (isNaN_eq_false_of_finite hb)] at h

end

/-! ### The parameters in their ranges -/

/-- What R40 asks of the operands of a SAMPLE: the parameter ranges, and inputs of magnitude at most `m`. -/
structure Ports.Bounded (m : Word) (p : Ports) : Prop where
  feedback : between zeroF p.pFeedback feedbackMax = true
  depth : between zeroF p.pDepth oneF = true
  rate : between 0x3DCCCCCD#32 p.pRate 0x41A00000#32 = true
  inL : withinMag m p.inL = true
  inR : withinMag m p.inR = true

theorem Ports.bounded_of_inRange {m : Word} {p : Ports} (hr : p.inRange = true) (hL : withinMag m p.inL = true)
    (hR : withinMag m p.inR = true) : p.Bounded m := by
  simp only [Ports.inRange, Bool.and_eq_true] at hr
  obtain ⟨⟨⟨hfeedback, hdepth⟩, hrate⟩, -⟩ := hr
  exact ⟨hfeedback, hdepth, hrate, hL, hR⟩

theorem value_fNeg (w : Word) : value (fNeg w) = -value w := by
  rw [value, value, units_fNeg, Int.cast_neg, neg_div]

/-- The LFO value of a phase in [0, 1) is in [-1, 1]. -/
theorem between_lfoValue {phase : Word} (h : inUnit phase = true) :
    between (fNeg oneF) (lfoValue Config.hardware.sine.fn phase) oneF = true := by
  obtain ⟨-, -, -, hf, hlo, hhi, -⟩ := lfoValueIsASineOfThePhase.1 phase (between_unit_of_inUnit h)
  rw [← value_oneF] at hlo hhi
  exact between_iff.mpr ⟨by decide, isNaN_eq_false_of_finite hf, by decide, value_le_value_iff.mp (value_fNeg oneF ▸ hlo),
    value_le_value_iff.mp hhi⟩

/-- Both ranges of the delay time are in [0, CH_MAX]. -/
theorem between_mapDelay {mode : Mode} {v depth : Word} (hv : between (fNeg oneF) v oneF = true)
    (hd : between zeroF depth oneF = true) : between zeroF (mapDelay (delayRange mode) depth v) chMax = true := by
  have hends : units zeroF ≤ units (delayRange mode).1 ∧ units (delayRange mode).2 ≤ units chMax := by
    cases mode <;> decide +kernel
  obtain ⟨-, hn, -, hlo, hhi⟩ := between_iff.mp (mapStaysInTheModeRange mode v depth v depth hv hd hv hd).1
  exact between_iff.mpr ⟨by decide, hn, by decide, hends.1.trans hlo, hhi.trans hends.2⟩

/-- A bound on the inputs is finite when its sum with a finite bound on the feedback stays below a finite bound. -/
theorem finite_of_fGe_fAdd {b c m x : Word} (hb : isFinite b = true) (hc : isFinite c = true) (h : fGe b (fAdd m c) = true)
    (hx : withinMag m x = true) : isFinite m = true := by
  have h0 := units_nonneg_of_withinMag hx
  obtain ⟨hnm, -, -⟩ := withinMag_iff.mp hx
  rcases finite_or_inf hnm with hm | hm
  · exact hm
  · have hsum : fAdd m c = m := by
      simp [fAdd, hnm, isNaN_eq_false_of_finite hc, hm, isInf_eq_false_of_finite hc]
    obtain ⟨-, -, hle⟩ := fGe_iff.mp h
    exact finite_of_between (a := zeroF) (by decide) hb (units_zeroF.trans_le h0) (hsum ▸ hle)

/-- The feedback range is a weight: its bound 0.98 does not enlarge a word. -/
theorem isWeight_feedbackMax : IsWeight feedbackMax := ⟨by decide, units_nonneg_of_signBit (by decide), by decide +kernel⟩

section

variable {s t : State} {b m : Word} {p : Ports}

/-- R40: a frame with its parameters in range keeps the bounds. -/
theorem sampleFrom_keeps_bounded {vR : Word} (hinv : s.Inv Config.hardware.capMaxOf) (hp : s.prep = true)
    (hb : isFinite b = true) (hm : fGe b (fAdd m (fMul feedbackMax b)) = true) (hbound : s.Bounded b)
    (hsr : fGt s.sr 0x41A00000#32 = true) (hports : p.Bounded m)
    (ht : sampleFrom (SampleOperands.ofPorts p) (lfoValue Config.hardware.sine.fn s.phase) vR s = .next t) : t.Bounded b := by
  obtain ⟨hphase, hsmooth, ⟨hfbL, hfbR⟩, hwords⟩ := State.bounded_iff.mp hbound
  have hc := isWeight_feedbackMax.isFinite_fMul hb
  have hfm := finite_of_fGe_fAdd hb hc hm hports.inL
  have hlanes := sampleFrom_bounded hinv hp ht hb isWeight_feedbackMax.finite hwords
    (withinMag_of_fGe hm (withinMag_fAdd hfm hc hports.inL hfbL)) (withinMag_of_fGe hm (withinMag_fAdd hfm hc hports.inR hfbR))
    (withinMag_of_between_zeroF hports.feedback)
  rw [fMul_comm b] at hlanes
  have htarget := between_mapDelay (mode := Mode.ofPort p.pMode) (between_lfoValue hphase) hports.depth
  have hsmooth' := between_smoothStep (by decide) units_zeroF.ge (by decide) hsmooth htarget
  have hphase' := inUnit_wrapPhase_fAdd hphase (inUnit_increment hports.rate hsr)
  obtain ⟨l, r, -, -, rfl⟩ := sampleFrom_next ht
  exact State.bounded_iff.mpr ⟨hphase', hsmooth', hlanes.2, hlanes.1⟩

/-! ### What clears the datapath -/

theorem fMul_feedbackMax_nonneg (hb : isNaN b = false) (h0 : 0 ≤ units b) :
    isNaN (fMul feedbackMax b) = false ∧ 0 ≤ units (fMul feedbackMax b) := by
  have hz : isZero feedbackMax = false := by decide
  refine ⟨by rw [isWeight_feedbackMax.isNaN_fMul hb, hz, Bool.false_and], ?_⟩
  rcases finite_or_inf hb with hf | hi
  · rw [← units_zeroF]
    refine le_units_fMul isWeight_feedbackMax.finite hf (by decide) ?_
    rw [units_zeroF, zero_mul]
    exact mul_nonneg isWeight_feedbackMax.nonneg h0
  · have hbz : isZero b = false := by
      rw [eq_infinity_of_isInf hi]
      cases signBit b <;> decide
    refine units_nonneg_of_signBit ?_
    rw [isWeight_feedbackMax.signBit_fMul hb hz, signBit_eq_decide_units_neg hbz, decide_eq_false (not_lt.mpr h0)]

/-- The least negative bound already has a negative product with 0.98, so a bound with a feedback within it is not negative. -/
theorem units_nonneg_of_fMul_feedbackMax (hb : isFinite b = true) (h : 0 ≤ units (fMul feedbackMax b)) : 0 ≤ units b := by
  by_contra hneg
  have htiny : units 0x80000001#32 = -1 := by decide
  have hround : units (fMul feedbackMax 0x80000001#32) = -1 := by decide +kernel
  have hmono := units_fMul_mono (c := feedbackMax) (d := 0x80000001#32) isWeight_feedbackMax.finite hb
    isWeight_feedbackMax.finite (by decide) (mul_le_mul_of_nonneg_left (by omega) isWeight_feedbackMax.nonneg)
  omega

theorem State.Bounded.bound_nonneg (hb : isFinite b = true) (h : s.Bounded b) : 0 ≤ units b := by
  obtain ⟨-, -, ⟨hfb, -⟩, -⟩ := State.bounded_iff.mp h
  exact units_nonneg_of_fMul_feedbackMax hb (units_nonneg_of_withinMag hfb)

/-- A cleared datapath with zeros in use meets every bound that is no NaN and not negative. -/
theorem State.Bounded.of_cleared (hb : isNaN b = false) (h0 : 0 ≤ units b) (hphase : s.phase = zeroF)
    (hsmooth : s.smooth = zeroF) (hfbL : s.fbL = zeroF) (hfbR : s.fbR = zeroF)
    (hL : ∀ i, i < s.cap.toNat → s.bufL.read i = zeroF) (hR : ∀ i, i < s.cap.toNat → s.bufR.read i = zeroF) :
    s.Bounded b := by
  obtain ⟨hcn, hc0⟩ := fMul_feedbackMax_nonneg hb h0
  have hw := withinMag_zeroF hb h0
  have hc := withinMag_zeroF hcn hc0
  have hp0 : inUnit zeroF = true := by decide
  have hs0 : between zeroF zeroF chMax = true := by decide +kernel
  exact ⟨hphase ▸ hp0, by rwa [hsmooth], hfbL ▸ hc, hfbR ▸ hc, fun i hi => hL i hi ▸ hw, fun i hi => hR i hi ▸ hw⟩

theorem bounded_prepareValid (hb : isNaN b = false) (h0 : 0 ≤ units b) (c : Nat) (sr : Word) (s : State) :
    (prepareValid c sr s).Bounded b := by
  have hzero : ∀ (m : Memory) (i : Nat), i < (BitVec.ofNat 25 c).toNat → (m.zeroBelow c).read i = zeroF := by
    intro m i hi
    rw [BitVec.toNat_ofNat] at hi
    rw [Memory.read_zeroBelow, if_pos (hi.trans_le (Nat.mod_le _ _))]
  exact .of_cleared hb h0 rfl rfl rfl rfl (hzero s.bufL) (hzero s.bufR)

/-- With capacity 0 no word is in use. -/
theorem bounded_of_cap_zero (hb : isNaN b = false) (h0 : 0 ≤ units b) (hphase : s.phase = zeroF) (hsmooth : s.smooth = zeroF)
    (hfbL : s.fbL = zeroF) (hfbR : s.fbR = zeroF) (hcap : s.cap = 0#25) : s.Bounded b := by
  have hnone : ∀ i, ¬i < s.cap.toNat := fun i => by rw [hcap]; exact Nat.not_lt_zero i
  exact .of_cleared hb h0 hphase hsmooth hfbL hfbR (fun i hi => absurd hi (hnone i)) (fun i hi => absurd hi (hnone i))

theorem bounded_takeInputs (h : s.Bounded b) : (takeInputs s).Bounded b := by simpa [State.Bounded] using h

/-- R40: every event keeps the bounds, when a frame that it may be has its parameters in range. -/
theorem stepEvent_keeps_bounded (hinv : s.Inv Config.hardware.capMaxOf) (hb : isFinite b = true)
    (hm : fGe b (fAdd m (fMul feedbackMax b)) = true) (hbound : s.Bounded b)
    (hframe : s.prep = true → s.nextPorts.accepts 0x02#8 = true → fGt s.sr 0x41A00000#32 = true ∧ s.nextPorts.Bounded m)
    (h : StepEvent s t) : t.Bounded b := by
  have hnb := isNaN_eq_false_of_finite hb
  have hb0 := hbound.bound_nonneg hb
  have hu := bounded_takeInputs hbound
  cases h with
  | idle | nop | clrerr | unprepared | illegal => exact hu
  | reset | invalid => exact bounded_of_cap_zero hnb hb0 rfl rfl rfl rfl rfl
  | prepared => exact bounded_prepareValid hnb hb0 _ _ _
  | frame ha hp ht =>
    obtain ⟨hsr, hports⟩ := hframe hp ha
    refine sampleFrom_keeps_bounded (inv_takeInputs hinv) ((takeInputs_prep s).trans hp) hb hm hu ?_ hports
      (by rwa [takeInputs_phase])
    rwa [takeInputs_sr]

end

/-! ### The obligations -/

/-- Settles O51: the write value is a zero plus a feedback within the bound, and a gain within 1.0 keeps the blend within it. -/
theorem silentInputNeverGrows : Obligations.SilentInputNeverGrows := by
  intro s t b hinv hp hb hL hR hgain hfbL hfbR hwords h
  rcases execSample_next h with ⟨hp', -⟩ | ⟨-, ht⟩
  · simp [hp] at hp'
  · obtain ⟨⟨hl, hr⟩, hfbL', hfbR'⟩ := sampleFrom_silent hinv hp ht hb hL hR hgain
      ⟨fun i hi => (hwords i hi).1, fun i hi => (hwords i hi).2⟩ ⟨hfbL, hfbR⟩
    exact ⟨hfbL', hfbR', fun i hi => ⟨hl i hi, hr i hi⟩⟩

/-- Settles O52: the write value is within the sum of the two bounds, which `b` reaches; the blend stays within `b` and the gain
brings it within `f_mul(0.98, b)`; smoother and phase have ranges of their own; every other event keeps or clears all of it. -/
theorem inRangeRunsStayBounded : Obligations.InRangeRunsStayBounded := by
  intro s t m b hinv hb hm hbound
  refine ⟨fun hp hsr hrange hL hR h => ?_, fun hframe h => ?_⟩
  · rcases execSample_next h with ⟨hp', -⟩ | ⟨-, ht⟩
    · simp [hp] at hp'
    · exact sampleFrom_keeps_bounded hinv hp hb hm hbound hsr (Ports.bounded_of_inRange hrange hL hR) ht
  · refine stepEvent_keeps_bounded hinv hb hm hbound (fun hp ha => ?_) (stepEvent_of_step h)
    obtain ⟨hsr, hrange, hL, hR⟩ := hframe hp ha
    exact ⟨hsr, Ports.bounded_of_inRange hrange hL hR⟩

/-- Settles O53: a valid PREPARE clears the datapath and zeroes every word in use. -/
theorem prepareEstablishesTheBounds : Obligations.PrepareEstablishesTheBounds := by
  intro s t b hb h hp
  obtain ⟨hnb, -, h0⟩ := fGe_iff.mp hb
  rcases execPrepare_cases s with ⟨c, -, he⟩ | ⟨-, he⟩
  · cases he.symm.trans h
    exact bounded_prepareValid hnb (units_zeroF ▸ h0) _ _ _
  · cases he.symm.trans h
    simp at hp

end Sys2Proof.Machine

/-! PROOFS. The commands as functions: a valid PREPARE (R37, R202, R255), what SAMPLE reads and what it does not (R186, R262), and that
every command completes (R200). -/

namespace Sys2Proof.Machine

/-! ### A valid PREPARE -/

theorem execPrepare_of_capCalc {s : State} {c : Nat}
    (h : capCalc Config.hardware.capMaxOf s.ports.cfgSampleRate s.ports.cfgMaxDelay = some c) :
    execPrepare s = .next (prepareValid c s.ports.cfgSampleRate s) := by
  rcases execPrepare_cases s with ⟨c', hc, he⟩ | ⟨hc, -⟩
  · rwa [Option.some.inj (h.symm.trans hc)]
  · simp [h] at hc

/-- Zeroing the words below `c` once more changes nothing. -/
theorem Memory.zeroBelow_zeroBelow (m : Memory) (c : Nat) : (m.zeroBelow c).zeroBelow c = m.zeroBelow c := by
  simp [Memory.zeroBelow]

theorem prepareValid_prepareValid (c : Nat) (sr : Word) (s : State) :
    prepareValid c sr (prepareValid c sr s) = prepareValid c sr s := by
  simp [prepareValid, clearDatapath, Memory.zeroBelow_zeroBelow]

/-! ### SAMPLE and the configuration ports -/

/-- The state with other levels on the ports. -/
def State.withPorts (s : State) (p : Ports) : State := { s with ports := p }

theorem raiseError_withPorts (e : ErrorCause) (s : State) (p : Ports) :
    raiseError e (s.withPorts p) = (raiseError e s).withPorts p := by cases e <;> rfl

/-- Past its operands a frame reads no port. -/
theorem sampleFrom_withPorts {o : SampleOperands} {vL vR : Word} {s t : State} (h : sampleFrom o vL vR s = .next t)
    (p : Ports) : sampleFrom o vL vR (s.withPorts p) = .next (t.withPorts p) := by
  obtain ⟨l, r, hl, hr, rfl⟩ := sampleFrom_next h
  simp only [sampleFrom, State.withPorts, hl, hr]

/-- SAMPLE reads the ports through its operands alone. -/
theorem execSample_withPorts {s t : State} {p : Ports} (hp : SampleOperands.ofPorts p = SampleOperands.ofPorts s.ports)
    (h : execSample s = .next t) : execSample (s.withPorts p) = .next (t.withPorts p) := by
  have hoffset : p.pPhaseOffset = s.ports.pPhaseOffset := congrArg SampleOperands.offset hp
  rcases execSample_next h with ⟨hprep, rfl⟩ | ⟨hprep, ht⟩
  · rw [← raiseError_withPorts]
    exact execSample_of_unprepared hprep
  · rw [← hp, ← hoffset] at ht
    exact (execSample_of_prepared (s := s.withPorts p) hprep).trans (sampleFrom_withPorts ht p)

theorem ports_execSample {s t : State} (h : execSample s = .next t) : t.ports = s.ports := by
  rcases execSample_next h with ⟨-, rfl⟩ | ⟨-, ht⟩
  · exact raiseUnprep_ports s
  · obtain ⟨l, r, -, -, rfl⟩ := sampleFrom_next ht
    rfl

/-! ### The lanes -/

/-- Lanes that agree on what they read write the same. -/
theorem runLane_ok_unique {cap wh : Nat} {m : Memory} {dry fb d gain mix : Word} {r r' : LaneResult}
    (h : runLane cap wh m dry fb d gain mix = .ok r) (h' : runLane cap wh m dry fb d gain mix = .ok r') : r = r' :=
  Except.ok.inj (h.symm.trans h')

/-- What the two lanes share (R186). -/
structure SharedEqual (s s' : State) : Prop where
  sr : s.sr = s'.sr
  cap : s.cap = s'.cap
  wh : s.wh = s'.wh
  phase : s.phase = s'.phase
  mix : s.ports.pMix = s'.ports.pMix
  feedback : s.ports.pFeedback = s'.ports.pFeedback
  depth : s.ports.pDepth = s'.ports.pDepth
  rate : s.ports.pRate = s'.ports.pRate
  mode : s.ports.pMode = s'.ports.pMode

section

variable {vL vR vR' : Word} {s s' t t' : State} (hs : SharedEqual s s')

include hs

/-- Frames with the same shared state and left LFO value agree on the left lane, whatever the right LFO value is. -/
theorem sampleFrom_left_lane (ht : sampleFrom (SampleOperands.ofPorts s.ports) vL vR s = .next t)
    (ht' : sampleFrom (SampleOperands.ofPorts s'.ports) vL vR' s' = .next t') (hbuf : s.bufL = s'.bufL) (hfb : s.fbL = s'.fbL)
    (hsmooth : s.smooth = s'.smooth) (hin : s.ports.inL = s'.ports.inL) :
    t.bufL = t'.bufL ∧ t.fbL = t'.fbL ∧ t.outL = t'.outL ∧ t.smooth = t'.smooth := by
  obtain ⟨hsr, hcap, hwh, -, hmix, hfeedback, hdepth, -, hmode⟩ := hs
  obtain ⟨l, r, hl, -, rfl⟩ := sampleFrom_next ht
  obtain ⟨l', r', hl', -, rfl⟩ := sampleFrom_next ht'
  simp only [SampleOperands.ofPorts, hsr, hcap, hwh, hmix, hfeedback, hdepth, hmode, hbuf, hfb, hsmooth, hin] at hl hl' ⊢
  obtain rfl := runLane_ok_unique hl hl'
  simp only [and_self]

/-- Frames with the same shared state and right LFO value agree on the right lane, whatever the left LFO value is. -/
theorem sampleFrom_right_lane {vL vL' vR : Word} (ht : sampleFrom (SampleOperands.ofPorts s.ports) vL vR s = .next t)
    (ht' : sampleFrom (SampleOperands.ofPorts s'.ports) vL' vR s' = .next t') (hbuf : s.bufR = s'.bufR) (hfb : s.fbR = s'.fbR)
    (hin : s.ports.inR = s'.ports.inR) : t.bufR = t'.bufR ∧ t.fbR = t'.fbR ∧ t.outR = t'.outR := by
  obtain ⟨hsr, hcap, hwh, -, hmix, hfeedback, hdepth, -, hmode⟩ := hs
  obtain ⟨l, r, -, hr, rfl⟩ := sampleFrom_next ht
  obtain ⟨l', r', -, hr', rfl⟩ := sampleFrom_next ht'
  simp only [SampleOperands.ofPorts, hsr, hcap, hwh, hmix, hfeedback, hdepth, hmode, hbuf, hfb, hin] at hr hr' ⊢
  obtain rfl := runLane_ok_unique hr hr'
  simp only [and_self]

/-- The write head and the phase depend on shared state alone. -/
theorem sampleFrom_shared {vL vL' vR vR' : Word} (ht : sampleFrom (SampleOperands.ofPorts s.ports) vL vR s = .next t)
    (ht' : sampleFrom (SampleOperands.ofPorts s'.ports) vL' vR' s' = .next t') : t.wh = t'.wh ∧ t.phase = t'.phase := by
  obtain ⟨hsr, hcap, hwh, hphase, -, -, -, hrate, -⟩ := hs
  obtain ⟨l, r, -, -, rfl⟩ := sampleFrom_next ht
  obtain ⟨l', r', -, -, rfl⟩ := sampleFrom_next ht'
  simp only [SampleOperands.ofPorts, hsr, hcap, hwh, hphase, hrate, and_self]

end

/-! ### Completion -/

/-- A command completes in every state that meets the invariant of R39. -/
theorem exec_completes {s : State} (h : s.Inv Config.hardware.capMaxOf) (i : Instr) : ∃ t, exec i s = .next t := by
  cases i with
  | nop => exact ⟨s, exec_nop s⟩
  | prepare =>
    rcases execPrepare_cases s with ⟨c, -, he⟩ | ⟨-, he⟩
    · exact ⟨_, he⟩
    · exact ⟨_, he⟩
  | sample =>
    cases hp : s.prep with
    | false => exact ⟨_, execSample_of_unprepared hp⟩
    | true =>
      obtain ⟨hwh, hcap⟩ := h.head_in_ring hp
      obtain ⟨hwfL, hwfR⟩ := h.rings_wf
      obtain ⟨t, ht, -⟩ := sampleFrom_completes hwh hcap hwfL hwfR
      exact ⟨t, (execSample_of_prepared hp).trans ht⟩
  | clrerr => exact ⟨_, exec_clrerr s⟩

/-- An instant answers a next state when every command does. -/
theorem instant_completes {s : State} (h : ∀ i, ∃ t, exec i s = .next t) : ∃ t, instant s = .next t := by
  cases hr : s.ports.rst with
  | true => exact ⟨_, instant_of_rst hr⟩
  | false =>
    cases hv : s.ports.cmdValid with
    | false => exact ⟨_, instant_of_idle hr hv⟩
    | true =>
      rw [instant_of_accept hr hv]
      cases hd : decode s.ports.cmd with
      | ok i => rw [acceptCommand_of_decode_ok hd]; exact h i
      | error r => exact ⟨_, acceptCommand_of_four_le (four_le_of_decode_error hd)⟩

/-! ### The obligations -/

/-- Settles O11: PREPARE, NOP, CLRERR and ILLEGAL always answer, and the invariant keeps both lanes of a SAMPLE inside their rings. -/
theorem everyStepCompletesInsideTheRing : Obligations.EveryStepCompletesInsideTheRing :=
  fun _ h => instant_completes (exec_completes (inv_takeInputs h))

/-- Settles O15: CAPCALC answers the capacity of a valid configuration, which fits 25 bits. -/
theorem prepareWithValidConfigurationResetsAndSizes : Obligations.PrepareWithValidConfigurationResetsAndSizes := by
  intro s c hvalid
  have hc := capCalc_of_configValid hvalid
  have hle : c ≤ 2 ^ 24 := (capCalc_bounds hc).2.trans (capMaxOf_le _)
  exact ⟨_, execPrepare_of_capCalc hc, rfl, rfl, Nat.mod_eq_of_lt (by omega), rfl, rfl, rfl, rfl, rfl, rfl, rfl,
    Memory.read_zeroBelow s.bufL c, Memory.read_zeroBelow s.bufR c, rfl, rfl, rfl, rfl, rfl, rfl, rfl, rfl⟩

/-- Settles O17: the ports are unchanged, so CAPCALC answers the same capacity, and zeroing again changes nothing. -/
theorem prepareIsIdempotent : Obligations.PrepareIsIdempotent := by
  intro s t h hp
  rcases execPrepare_cases s with ⟨c, hc, he⟩ | ⟨-, he⟩
  · cases he.symm.trans h
    have hagain := execPrepare_of_capCalc (s := prepareValid c s.ports.cfgSampleRate s) hc
    rwa [prepareValid_ports, prepareValid_prepareValid] at hagain
  · cases he.symm.trans h
    simp at hp

/-- Settles O28: the operands of SAMPLE leave out both configuration ports, and past its operands it reads no port. -/
theorem sampleIgnoresTheConfigurationPorts : Obligations.SampleIgnoresTheConfigurationPorts := by
  intro s t sr md h
  rw [ports_execSample h]
  exact execSample_withPorts rfl h

/-- Settles O29: each lane reads its own memory, feedback, input and delay, and what both share. -/
theorem lanesDoNotInfluenceEachOther : Obligations.LanesDoNotInfluenceEachOther := by
  intro s s' t t' h h' hprep hsr hcap hwh hphase hmix hfeedback hdepth hrate hmode
  have hs : SharedEqual s s' := ⟨hsr, hcap, hwh, hphase, hmix, hfeedback, hdepth, hrate, hmode⟩
  rcases execSample_next h with ⟨hp, rfl⟩ | ⟨hp, ht⟩ <;> rcases execSample_next h' with ⟨hp', rfl⟩ | ⟨hp', ht'⟩
  · exact ⟨fun hbuf hfb hout hsmooth _ => ⟨hbuf, hfb, hout, hsmooth, hwh, hphase⟩,
      fun hbuf hfb hout _ _ => ⟨hbuf, hfb, hout, hwh, hphase⟩⟩
  · simp [hprep, hp'] at hp
  · simp [hprep, hp'] at hp
  · have hshared := sampleFrom_shared hs ht ht'
    refine ⟨fun hbuf hfb _ hsmooth hin => ?_, fun hbuf hfb _ hin hoffset => ?_⟩
    · rw [hphase] at ht
      obtain ⟨hbuf', hfb', hout', hsmooth'⟩ := sampleFrom_left_lane hs ht ht' hbuf hfb hsmooth hin
      exact ⟨hbuf', hfb', hout', hsmooth', hshared⟩
    · rw [hphase, hoffset] at ht
      obtain ⟨hbuf', hfb', hout'⟩ := sampleFrom_right_lane hs ht ht' hbuf hfb hin
      exact ⟨hbuf', hfb', hout', hshared⟩

end Sys2Proof.Machine

/-! PROOFS. Every NaN the core holds is the canonical one (R10, R52): the operations answer no other, and a SAMPLE stores only what
they answer. -/

namespace Sys2Proof.Machine

/-! ### The operations -/

theorem nanCanonical_iff {w : Word} : nanCanonical w = true ↔ (isNaN w = true → w = canonicalNaN) := by
  cases h : isNaN w <;> simp [nanCanonical, h]

theorem nanCanonical_of_not_nan {w : Word} (h : isNaN w = false) : nanCanonical w = true :=
  nanCanonical_iff.mpr (fun hn => by simp [h] at hn)

@[simp] theorem nanCanonical_fAdd (a b : Word) : nanCanonical (fAdd a b) = true := nanCanonical_iff.mpr fAdd_nan

@[simp] theorem nanCanonical_fSub (a b : Word) : nanCanonical (fSub a b) = true := nanCanonical_iff.mpr fSub_nan

@[simp] theorem nanCanonical_fMul (a b : Word) : nanCanonical (fMul a b) = true := nanCanonical_iff.mpr fMul_nan

@[simp] theorem nanCanonical_zeroF : nanCanonical zeroF = true := by decide

/-- The wrap answers the sum or its difference with 1.0. -/
theorem nanCanonical_lfoAdvance (phase rate sr : Word) : nanCanonical (lfoAdvance phase rate sr) = true := by
  unfold lfoAdvance wrapPhase
  split
  · exact nanCanonical_fSub _ _
  · exact nanCanonical_fAdd _ _

/-! ### The memories -/

section

variable {m : Memory}

theorem Memory.nanCanonical_iff : m.nanCanonical = true ↔ ∀ c ∈ m.cells, Machine.nanCanonical c.2 = true := by
  simp [Memory.nanCanonical]

theorem Memory.nanCanonical_write (h : m.nanCanonical = true) (i : Nat) {v : Word} (hv : Machine.nanCanonical v = true) :
    (m.write i v).nanCanonical = true := by
  rw [Memory.nanCanonical_iff] at h ⊢
  intro c hc
  rcases Memory.mem_cells_write hc with rfl | hc
  · exact hv
  · exact h c hc

theorem Memory.nanCanonical_zeroBelow (h : m.nanCanonical = true) (c : Nat) : (m.zeroBelow c).nanCanonical = true := by
  rw [Memory.nanCanonical_iff] at h ⊢
  exact fun x hx => h x (List.mem_filter.mp hx).1

end

@[simp] theorem Memory.nanCanonical_unspecified (n : Nat) : (Memory.unspecified n).nanCanonical = true := rfl

/-! ### The state -/

/-- The registers and the two memories, one by one. -/
structure State.NanCanonical (s : State) : Prop where
  sr : Machine.nanCanonical s.sr = true
  phase : Machine.nanCanonical s.phase = true
  smooth : Machine.nanCanonical s.smooth = true
  fbL : Machine.nanCanonical s.fbL = true
  fbR : Machine.nanCanonical s.fbR = true
  outL : Machine.nanCanonical s.outL = true
  outR : Machine.nanCanonical s.outR = true
  bufL : s.bufL.nanCanonical = true
  bufR : s.bufR.nanCanonical = true

theorem State.nanCanonical_iff {s : State} : s.nanCanonical = true ↔ s.NanCanonical := by
  simp only [State.nanCanonical, Bool.and_eq_true, and_assoc]
  exact ⟨fun ⟨h1, h2, h3, h4, h5, h6, h7, h8, h9⟩ => ⟨h1, h2, h3, h4, h5, h6, h7, h8, h9⟩,
    fun ⟨h1, h2, h3, h4, h5, h6, h7, h8, h9⟩ => ⟨h1, h2, h3, h4, h5, h6, h7, h8, h9⟩⟩

section

variable {s t : State}

theorem nanCanonical_takeInputs (h : s.NanCanonical) : (takeInputs s).NanCanonical := by
  constructor <;> simp [h.sr, h.phase, h.smooth, h.fbL, h.fbR, h.outL, h.outR, h.bufL, h.bufR]

theorem nanCanonical_hardReset (s : State) : (hardReset s).NanCanonical := by constructor <;> simp

theorem nanCanonical_prepareInvalid (h : s.NanCanonical) : (prepareInvalid s).NanCanonical := by
  constructor <;> simp [h.bufL, h.bufR]

theorem nanCanonical_prepareValid (h : s.NanCanonical) (c : Nat) {sr : Word} (hsr : Machine.nanCanonical sr = true) :
    (prepareValid c sr s).NanCanonical := by
  constructor <;> simp [hsr, Memory.nanCanonical_zeroBelow h.bufL, Memory.nanCanonical_zeroBelow h.bufR]

/-- A frame stores sums, differences and products only. -/
theorem nanCanonical_sampleFrom {o : SampleOperands} {vL vR : Word} (h : s.NanCanonical)
    (ht : sampleFrom o vL vR s = .next t) : t.NanCanonical := by
  obtain ⟨l, r, hl, hr, rfl⟩ := sampleFrom_next ht
  obtain ⟨-, yL, -, rfl⟩ := runLane_ok hl
  obtain ⟨-, yR, -, rfl⟩ := runLane_ok hr
  exact
    { sr := h.sr
      phase := nanCanonical_lfoAdvance _ _ _
      smooth := nanCanonical_fSub _ _
      fbL := nanCanonical_fMul _ _
      fbR := nanCanonical_fMul _ _
      outL := nanCanonical_fAdd _ _
      outR := nanCanonical_fAdd _ _
      bufL := Memory.nanCanonical_write h.bufL _ (nanCanonical_fAdd _ _)
      bufR := Memory.nanCanonical_write h.bufR _ (nanCanonical_fAdd _ _) }

theorem stepEvent_keeps_nanCanonical (h : s.NanCanonical) (he : StepEvent s t) : t.NanCanonical := by
  have hu := nanCanonical_takeInputs h
  cases he with
  | reset => exact nanCanonical_hardReset _
  | idle | nop => exact hu
  | prepared _ hc =>
    obtain ⟨hsr, -⟩ := capCalc_eq_some hc
    exact nanCanonical_prepareValid hu _ (nanCanonical_of_not_nan (isNaN_eq_false_of_finite hsr))
  | invalid => exact { nanCanonical_prepareInvalid hu with }
  | unprepared | clrerr | illegal => exact { hu with }
  | frame _ _ ht => exact nanCanonical_sampleFrom hu ht

end

/-! ### The obligation -/

/-- Settles O12: a step stores a result of the arithmetic, a zero, or a sample rate that CAPCALC found finite. -/
theorem everyStepKeepsNaNsCanonical : Obligations.EveryStepKeepsNaNsCanonical :=
  ⟨by decide, fun _ _ hs h =>
    State.nanCanonical_iff.mpr (stepEvent_keeps_nanCanonical (State.nanCanonical_iff.mp hs) (stepEvent_of_step h))⟩

end Sys2Proof.Machine

/-! PROOFS. A channel memory read after a write (R52), and what the ring reads at an integer delay (R106, R107) and at delay +0.0
(R164, R257). -/

namespace Sys2Proof.Machine

/-! ### Access to a channel memory -/

theorem memRead_write_other {cap i : Nat} (m : Memory) (v : Word) {j : Int} (h : j ≠ i) :
    memRead cap (m.write i v) j = memRead cap m j := by
  unfold memRead
  split
  next hj => rw [Memory.read_write_other m v (by omega)]
  next => rfl

/-- Outside the ring in use both accesses stop. -/
theorem mem_access_outside {cap : Nat} {i : Int} (h : ¬(0 ≤ i ∧ i < cap)) (m : Memory) (v : Word) :
    memWrite cap m i v = .error .bufferIndex ∧ memRead cap m i = .error .bufferIndex :=
  ⟨if_neg h, if_neg h⟩

/-! ### The position of an integer delay -/

section

variable {cap wh d : Nat}

/-- The head's distance behind itself is exact: an integer of at most 24 bits and a sign. -/
theorem units_fSub_toF_toF (hwh : wh ≤ 2 ^ 24) (hd : d ≤ 2 ^ 24) :
    units (fSub (toF wh) (toF d)) = 2 ^ 149 * ((wh : Int) - d) := by
  obtain ⟨hfw, hw⟩ := units_toF hwh
  obtain ⟨hfd, hdu⟩ := units_toF hd
  rcases Nat.le_total d wh with h | h
  · obtain ⟨hfc, hc⟩ := units_toF (n := wh - d) (by omega)
    rw [units_fSub_exact hfw hfd (isNaN_eq_false_of_finite hfc) (by rw [hw, hdu, hc]; omega), hc]
    omega
  · obtain ⟨hfc, hc⟩ := units_toF (n := d - wh) (by omega)
    have hnc : isNaN (fNeg (toF (d - wh))) = false := by rw [isNaN_fNeg]; exact isNaN_eq_false_of_finite hfc
    rw [units_fSub_exact hfw hfd hnc (by rw [hw, hdu, units_fNeg, hc]; omega), units_fNeg, hc]
    omega

/-- The position between the two wraps is the integer `(WH - d) mod CAP`. -/
theorem units_wrapOnce_toF (hwh : wh < cap) (hcap : cap ≤ 2 ^ 24) (hd : d < cap) :
    units (wrapOnce cap wh (toF d)) = units (toF ((wh + (cap - d)) % cap)) := by
  have hdiff := units_fSub_toF_toF (hwh.le.trans hcap) (hd.le.trans hcap)
  have hfw := (units_toF (hwh.le.trans hcap)).1
  have hfd := (units_toF (hd.le.trans hcap)).1
  obtain ⟨hfc, hc⟩ := units_toF hcap
  unfold wrapOnce
  split
  next hneg =>
    obtain ⟨-, -, hneg⟩ := fLt_iff.mp hneg
    rw [units_zeroF, hdiff] at hneg
    have hidx : (wh + (cap - d)) % cap = wh + (cap - d) := Nat.mod_eq_of_lt (by omega)
    obtain ⟨hfi, hi⟩ := units_toF (n := wh + (cap - d)) (by omega)
    obtain ⟨hlo, hhi⟩ :=
      units_fSub_toF_bounds hwh.le hcap hfd (units_nonneg_of_signBit (signBit_toF d)) (units_toF_mono hd.le hcap)
    have hfp : isFinite (fSub (toF wh) (toF d)) = true :=
      finite_of_between (by rwa [isFinite_fNeg]) hfc ((units_fNeg _).trans_le hlo) hhi
    rw [hidx]
    exact units_fAdd_exact hfp hfc (isNaN_eq_false_of_finite hfi) (by rw [hdiff, hc, hi]; omega)
  next hnonneg =>
    have hle := units_le_of_fLt_eq_false (isNaN_fSub_finite hfw hfd) (by decide) (Bool.eq_false_iff.mpr hnonneg)
    rw [units_zeroF, hdiff] at hle
    have hidx : (wh + (cap - d)) % cap = wh - d := by
      rw [show wh + (cap - d) = wh - d + cap by omega, Nat.add_mod_right, Nat.mod_eq_of_lt (by omega)]
    rw [hdiff, hidx, (units_toF (n := wh - d) (by omega)).2]
    omega

/-- R106 on words: the read position of an integer delay is the integer `(WH - d) mod CAP`. -/
theorem readPos_toF (hwh : wh < cap) (hcap : cap ≤ 2 ^ 24) (hd : d < cap) :
    readPos cap wh (toF d) = toF ((wh + (cap - d)) % cap) := by
  have hidx : (wh + (cap - d)) % cap < cap := Nat.mod_lt _ (Nat.zero_lt_of_lt hwh)
  have hfd := (units_toF (hd.le.trans hcap)).1
  have hd0 := units_nonneg_of_signBit (signBit_toF d)
  have hdc := units_toF_mono hd.le hcap
  have hu := units_wrapOnce_toF hwh hcap hd
  obtain ⟨hs, -⟩ := wrapOnce_bounds hwh.le hcap hfd hd0 hdc
  have hbelow : ¬fGe (wrapOnce cap wh (toF d)) (toF cap) = true := by
    rw [fGe_iff, hu, (units_toF (hidx.le.trans hcap)).2, (units_toF hcap).2]
    omega
  rw [readPos_eq_wrapOnce, if_neg hbelow]
  exact eq_of_units_eq_of_signBit_eq hu (by rw [hs, signBit_toF])

/-- SPLIT of an index is that index, the next one, and the fraction +0.0. -/
theorem split_toF {i : Nat} (hi : i ≤ 2 ^ 24) :
    split cap (toF i) = some ((i : Int), ((if i + 1 = cap then 0 else i + 1 : Nat) : Int), zeroF) := by
  obtain ⟨hf, hu⟩ := units_toF hi
  have hfloor : units (toF i) / 2 ^ 149 = i := by rw [hu]; omega
  rw [split_of_floor hf hfloor, fSub_toF_self hi (signBit_toF i) rfl]

end

/-! ### The blend with fraction +0.0 -/

section

variable {r x0 x1 : Word}

/-- A sum between the two words passes the output clamp unchanged. -/
theorem bracket_of_between (h : between (fMin x0 x1) r (fMax x0 x1) = true) : bracket r x0 x1 = r := by
  obtain ⟨-, -, -, hlo, hhi⟩ := between_iff.mp h
  have hlow : ¬fLt r (fMin x0 x1) = true := by rw [fLt_iff]; omega
  have hhigh : ¬fGt r (fMax x0 x1) = true := by rw [fGt_iff]; omega
  simp only [bracket, if_neg hlow, if_neg hhigh, ite_self]

theorem units_fMin_le_left (h0 : isNaN x0 = false) (h1 : isNaN x1 = false) : units (fMin x0 x1) ≤ units x0 := by
  unfold fMin
  split
  next => exact le_rfl
  next hge => exact units_le_of_fLt_eq_false h0 h1 (Bool.eq_false_iff.mpr hge)

theorem le_units_fMax_left (h0 : isNaN x0 = false) (h1 : isNaN x1 = false) : units x0 ≤ units (fMax x0 x1) := by
  unfold fMax
  split
  next => exact le_rfl
  next hle => exact units_le_of_fGt_eq_false h0 h1 (Bool.eq_false_iff.mpr hle)

/-- With fraction +0.0 the blend of two finite words has the value of the first: its weight is 1.0, and the other product a zero. -/
theorem units_lerp_zeroF (h0 : isFinite x0 = true) (h1 : isFinite x1 = true) : units (lerp x0 x1 zeroF) = units x0 := by
  have hn0 := isNaN_eq_false_of_finite h0
  have hn1 := isNaN_eq_false_of_finite h1
  have hw : fSub oneF zeroF = oneF := by decide +kernel
  have hz := isZero_fMul_zeroF h1
  have hu := units_fAdd_zero_right hz h0
  rw [lerp, hw, fMul_comm oneF, fMul_oneF hn0, fMul_comm zeroF, bracket_of_between, hu]
  exact between_iff.mpr ⟨isNaN_fMin hn0 hn1, isNaN_fAdd_finite h0 (finite_of_isZero hz), isNaN_fMax hn0 hn1,
    hu ▸ units_fMin_le_left hn0 hn1, hu ▸ le_units_fMax_left hn0 hn1⟩

end

/-! ### The obligations -/

/-- Settles O30: in the ring a write is one cell of the list, and outside it both accesses stop. -/
theorem memoryReadsWhatWasWritten : Obligations.MemoryReadsWhatWasWritten := by
  refine fun cap m i v hwf => ⟨fun h0 hi => ?_, fun hout => mem_access_outside (by omega) m v⟩
  obtain ⟨n, rfl⟩ := Int.eq_ofNat_of_zero_le h0
  have hn : n < cap := by omega
  refine ⟨m.write n v, memWrite_of_lt v hn, ?_, Memory.wf_write hwf n v, fun j hj => memRead_write_other m v hj⟩
  rw [memRead_of_lt hn, Memory.read_write_self hwf]

/-- Settles O36: the position is the integer itself, so SPLIT finds it with nothing left over. -/
theorem integerDelayReadsTheWordThatManyFramesBack : Obligations.IntegerDelayReadsTheWordThatManyFramesBack := by
  intro cap wh d hwh hcap hd
  refine ⟨?_, fun hlast => by rw [hlast, Nat.sub_sub_self (Nat.zero_lt_of_lt hwh)]⟩
  rw [readPos_toF hwh hcap hd]
  exact ⟨_, split_toF ((Nat.mod_lt _ (Nat.zero_lt_of_lt hwh)).le.trans hcap)⟩

/-- Settles O38: the position is the write head with fraction +0.0, and the blend is the word there in value. -/
theorem zeroDelayReadsTheWordJustWritten : Obligations.ZeroDelayReadsTheWordJustWritten := by
  intro cap wh m wv hwh hcap hwf hwv hnext
  have hpos : readPos cap wh zeroF = toF wh := by
    have hzero : zeroF = toF 0 := by decide +kernel
    rw [hzero, readPos_toF hwh hcap (Nat.zero_lt_of_lt hwh), Nat.sub_zero, Nat.add_mod_right, Nat.mod_eq_of_lt hwh]
  have hi1 : (if wh + 1 = cap then 0 else wh + 1) < cap := by split <;> omega
  have hu := units_lerp_zeroF hwv hnext
  refine ⟨_, ?_, finite_of_between hwv hwv hu.ge hu.le, by rw [value, value, hu]⟩
  simp only [readDelayed, hpos, split_toF (hwh.le.trans hcap), memRead_of_lt hwh, memRead_of_lt hi1, Memory.read_write_self hwf]

end Sys2Proof.Machine

/-! PROOFS. The special results of the arithmetic (IEEE 754, R10, R225): what each operation answers for a NaN, an infinity and a
zero. -/

namespace Sys2Proof.Machine

/-! ### Classes -/

theorem isZero_eq_false_of_isInf {w : Word} (h : isInf w = true) : isZero w = false := by
  rw [eq_infinity_of_isInf h]
  cases signBit w <;> decide

theorem isInf_eq_false_of_isZero {w : Word} (h : isZero w = true) : isInf w = false :=
  isInf_eq_false_of_finite (finite_of_isZero h)

/-! ### Every NaN answered is the canonical one -/

section

variable {a b : Word}

theorem nan_results_canonical :
    ∀ r ∈ [fAdd a b, fSub a b, fMul a b, fDiv a b], isNaN r = true → r = canonicalNaN := by
  simp only [List.forall_mem_cons, List.not_mem_nil, false_implies, implies_true, and_true]
  exact ⟨fAdd_nan, fSub_nan, fMul_nan, fDiv_nan⟩

theorem results_of_nan (h : isNaN a = true ∨ isNaN b = true) :
    ∀ r ∈ [fAdd a b, fSub a b, fMul a b, fDiv a b], r = canonicalNaN := by
  have hor : (isNaN a || isNaN b) = true := Bool.or_eq_true_iff.mpr h
  simp [fSub, fAdd, fMul, fDiv, hor]

/-- The sign of a quotient that is no NaN. -/
theorem signBit_fDiv (h : isNaN (fDiv a b) = false) : signBit (fDiv a b) = (signBit a != signBit b) := by
  unfold fDiv at h ⊢
  dsimp only at h ⊢
  split_ifs at h ⊢
  · simp [isNaN_canonicalNaN] at h
  · simp [isNaN_canonicalNaN] at h
  · exact signBit_packWord (by decide)
  · exact signBit_packWord (by decide)
  · simp [isNaN_canonicalNaN] at h
  · exact signBit_packWord (by decide)
  · exact signBit_roundWord _ _ _

end

/-! ### Operands that are no NaN -/

section

variable {a b : Word} (ha : isNaN a = false) (hb : isNaN b = false)

include ha hb

theorem sums_of_left_inf (hia : isInf a = true) (hib : isInf b = false) : fAdd a b = a ∧ fSub a b = a := by
  simp [fSub, fAdd, ha, hb, hia, hib]

theorem sums_of_right_inf (hib : isInf b = true) (hia : isInf a = false) : fAdd a b = b ∧ fSub a b = fNeg b := by
  simp [fSub, fAdd, ha, hb, hia, hib]

/-- Infinities of opposite signs have no sum, and of one sign no difference. -/
theorem sums_of_infs (hia : isInf a = true) (hib : isInf b = true) :
    fAdd a b = (if signBit a = signBit b then a else canonicalNaN) ∧
      fSub a b = (if signBit a = signBit b then canonicalNaN else a) := by
  cases hsa : signBit a <;> cases hsb : signBit b <;> simp [fSub, fAdd, ha, hb, hia, hib, hsa, hsb]

theorem fDiv_of_infs (hia : isInf a = true) (hib : isInf b = true) : fDiv a b = canonicalNaN := by
  simp [fDiv, ha, hb, hia, hib]

theorem fMul_of_inf_zero (hia : isInf a = true) (hzb : isZero b = true) : fMul a b = canonicalNaN := by
  simp [fMul, ha, hb, hia, hzb]

theorem fMul_of_inf (hia : isInf a = true) (hzb : isZero b = false) : fMul a b = infinity (signBit a != signBit b) := by
  simp [fMul, ha, hb, hia, hzb, isZero_eq_false_of_isInf hia]

theorem fDiv_of_left_inf (hia : isInf a = true) (hib : isInf b = false) : fDiv a b = infinity (signBit a != signBit b) := by
  simp [fDiv, ha, hb, hia, hib]

theorem fDiv_of_right_inf (hia : isInf a = false) (hib : isInf b = true) : fDiv a b = packWord (signBit a != signBit b) 0 := by
  simp [fDiv, ha, hb, hia, hib]

/-- R225: a non-zero value over zero. -/
theorem fDiv_of_zero_divisor (hza : isZero a = false) (hzb : isZero b = true) :
    fDiv a b = infinity (signBit a != signBit b) := by
  simp [fDiv, ha, hb, hza, hzb, isInf_eq_false_of_isZero hzb]

end

/-! ### Zero operands -/

section

variable {a b : Word} (hza : isZero a = true)

include hza

theorem results_of_zeros (hzb : isZero b = true) :
    fDiv a b = canonicalNaN ∧ fAdd a b = packWord (signBit a && signBit b) 0 := by
  have ha := finite_of_isZero hza
  have hb := finite_of_isZero hzb
  constructor
  · simp [fDiv, isNaN_eq_false_of_finite ha, isNaN_eq_false_of_finite hb, isInf_eq_false_of_finite ha,
      isInf_eq_false_of_finite hb, hza, hzb]
  · rw [fAdd_finite ha hb, if_pos (by rw [units_eq_zero_iff.mpr hza, units_eq_zero_iff.mpr hzb, add_zero])]

theorem fMul_of_left_zero (hb : isFinite b = true) : fMul a b = packWord (signBit a != signBit b) 0 := by
  rw [fMul_finite (finite_of_isZero hza) hb, units_eq_zero_iff.mpr hza, Int.natAbs_zero, Nat.zero_mul, roundWord,
    roundMag_zero (by positivity)]

theorem fDiv_of_left_zero (hb : isFinite b = true) (hzb : isZero b = false) :
    fDiv a b = packWord (signBit a != signBit b) 0 := by
  have hpos : 0 < (units b).natAbs := Int.natAbs_pos.mpr (fun h => by simp [units_eq_zero_iff.mp h] at hzb)
  rw [fDiv_finite (finite_of_isZero hza) hb hzb, units_eq_zero_iff.mpr hza, Int.natAbs_zero, Nat.mul_zero, roundWord,
    roundMag_zero hpos]

end

/-- A finite value minus itself is +0.0. -/
theorem fSub_self_of_finite {a : Word} (ha : isFinite a = true) : fSub a a = zeroF := by
  rw [fSub, fAdd_finite ha (by rwa [isFinite_fNeg]), units_fNeg, if_pos (add_neg_cancel _), signBit_fNeg, Bool.and_not_self]
  rfl

/-! ### The obligation -/

/-- Settles O32, class by class of the operands; products commute, so each clause about a product is proved for one side. -/
theorem specialResultsFollowIEEE754 : Obligations.SpecialResultsFollowIEEE754 := by
  refine fun a b => ⟨nan_results_canonical, results_of_nan, fun ha hb => ?_⟩
  refine ⟨sums_of_left_inf ha hb, sums_of_right_inf ha hb, ?_, ?_, ?_, fDiv_of_left_inf ha hb, fDiv_of_right_inf ha hb,
    results_of_zeros, fDiv_of_zero_divisor ha hb, signBit_fMul, signBit_fDiv, ?_, fun hf _ => fSub_self_of_finite hf⟩
  · intro hia hib
    obtain ⟨hadd, hsub⟩ := sums_of_infs ha hb hia hib
    exact ⟨hadd, hsub, fDiv_of_infs ha hb hia hib⟩
  · intro hia hzb
    rw [fMul_comm b, and_self]
    exact fMul_of_inf_zero ha hb hia hzb
  · intro hia hzb
    rw [fMul_comm b, and_self]
    exact fMul_of_inf ha hb hia hzb
  · intro hza hib
    have hfb := (isFinite_iff_not_nan_not_inf b).mpr ⟨hb, hib⟩
    rw [fMul_comm b]
    exact ⟨fMul_of_left_zero hza hfb, fMul_of_left_zero hza hfb, fDiv_of_left_zero hza hfb⟩

end Sys2Proof.Machine

/-! PROOFS. The arithmetic is correctly rounded (R10): the rounding of `±num/den` units is the nearest word, the even one of two that
are equally near, and an infinity from half an ulp past the largest finite value on. -/

namespace Sys2Proof.Machine

/-! ### The nearest magnitude -/

/-- A significand's magnitude over a denominator. -/
theorem magUnits_significand_mul {sh n : Nat} (den : Nat) (hn : n ≤ 2 ^ 24) (hs : sh = 0 ∨ 2 ^ 23 ≤ n) :
    magUnits (2 ^ 23 * sh + n) * den = n * (den * 2 ^ sh) := by
  rw [magUnits_significand hn hs, mul_assoc, mul_comm (2 ^ sh)]

/-- Rounding half to even goes down from at most half a step and up from at least half a step, and from half a step to an even
significand. -/
theorem roundHalfEven_cases (n r step : Nat) :
    (roundHalfEven n r step = n ∧ 2 * r ≤ step ∧ (2 * r = step → n % 2 = 0)) ∨
      (roundHalfEven n r step = n + 1 ∧ step ≤ 2 * r ∧ (2 * r = step → n % 2 = 1)) := by
  unfold roundHalfEven
  split
  · exact .inr (by omega)
  · exact .inl (by omega)

section

variable {num den : Nat} (hd : 0 < den)

include hd

/-- Below the overflow the rounding of a magnitude is the nearest one, and where another is equally near its bits are even. -/
theorem roundMag_nearest (hinf : roundMag num den < infBits) {m : Nat} (hm : m ≠ roundMag num den) :
    ((magUnits (roundMag num den) * den : Nat) - num : Int).natAbs ≤ ((magUnits m * den : Nat) - num : Int).natAbs ∧
      (((magUnits (roundMag num den) * den : Nat) - num : Int).natAbs = ((magUnits m * den : Nat) - num : Int).natAbs →
        roundMag num den % 2 = 0) := by
  obtain ⟨sh, n, r, hn, hs, hr, hnum, hround⟩ := roundMag_parts num hd
  have hlow := magUnits_significand_mul den hn.le hs
  have hhigh : magUnits (2 ^ 23 * sh + n + 1) * den = n * (den * 2 ^ sh) + den * 2 ^ sh := by
    rw [add_assoc, magUnits_significand_mul den (by omega) (by omega), add_mul, one_mul]
  have hmono : ∀ {i j}, i < j → magUnits i * den < magUnits j * den := fun h =>
    Nat.mul_lt_mul_of_pos_right (magUnits_lt_iff.mpr h) hd
  have hbelow : m < 2 ^ 23 * sh + n → magUnits m * den < n * (den * 2 ^ sh) := fun h => hlow ▸ hmono h
  have habove : 2 ^ 23 * sh + n + 1 < m → n * (den * 2 ^ sh) + den * 2 ^ sh < magUnits m * den := fun h => hhigh ▸ hmono h
  have hp : roundMag num den = 2 ^ 23 * sh + roundHalfEven n r (den * 2 ^ sh) := by omega
  rcases roundHalfEven_cases n r (den * 2 ^ sh) with ⟨hdown, hhalf, heven⟩ | ⟨hup, hhalf, hodd⟩
  · rw [hdown] at hp
    rw [hp, hlow]
    rcases Nat.lt_trichotomy m (2 ^ 23 * sh + n + 1) with h | rfl | h
    · have := hbelow (by omega)
      omega
    · omega
    · have := habove h
      omega
  · rw [hup, ← add_assoc] at hp
    rw [hp, hhigh]
    rcases Nat.lt_trichotomy m (2 ^ 23 * sh + n) with h | rfl | h
    · have := hbelow h
      omega
    · omega
    · have := habove (by omega)
      omega

/-- The rounding is nearest among values of both signs: a negative one is further away than zero. -/
theorem roundMag_nearest_signed (hinf : roundMag num den < infBits) {v : Int} {m : Nat} (hv : v.natAbs = magUnits m) :
    ((magUnits (roundMag num den) * den : Nat) - num : Int).natAbs ≤ (v * den - num : Int).natAbs ∧
      (((magUnits (roundMag num den) * den : Nat) - num : Int).natAbs = (v * den - num : Int).natAbs →
        v ≠ magUnits (roundMag num den) → roundMag num den % 2 = 0) := by
  rcases Int.natAbs_eq v with hpos | hneg
  · rw [hv] at hpos
    subst hpos
    by_cases hm : m = roundMag num den
    · subst hm
      exact ⟨by simp, fun _ hne => absurd rfl hne⟩
    · obtain ⟨hle, htie⟩ := roundMag_nearest hd hinf hm
      exact ⟨by exact_mod_cast hle, fun h _ => htie (by exact_mod_cast h)⟩
  · have hfar : (v * den - num : Int).natAbs = magUnits m * den + num := by
      have hsum : v * den - num = -((magUnits m * den + num : Nat) : Int) := by
        rw [hneg, hv]
        push_cast
        ring
      rw [hsum, Int.natAbs_neg, Int.natAbs_natCast]
    rw [hfar]
    by_cases hzero : roundMag num den = 0
    · simp [hzero]
    · obtain ⟨hle, htie⟩ := roundMag_nearest hd hinf (m := 0) (Ne.symm hzero)
      rw [magUnits_zero, Nat.zero_mul] at hle htie
      exact ⟨by omega, fun h _ => htie (by omega)⟩

/-- The magnitudes that round to an infinity: from half an ulp past the largest finite one,
`(2^25 - 1) * 2^252` units, on. -/
theorem roundMag_lt_infBits_iff : roundMag num den < infBits ↔ num < 33554431 * 2 ^ 252 * den := by
  have hthreshold : roundMag (33554431 * 2 ^ 252) 1 = infBits := by decide +kernel
  constructor
  · intro h
    by_contra hge
    have := roundMag_mono Nat.one_pos hd (num := 33554431 * 2 ^ 252) (num' := num) (by omega)
    omega
  · intro h
    obtain ⟨sh, n, r, hn, hs, hr, hnum, hround⟩ := roundMag_parts num hd
    have hinf : infBits = 2 ^ 23 * 253 + 2 ^ 24 := rfl
    have htop : magUnits infBits = 2 ^ 277 := by
      rw [hinf, magUnits_significand le_rfl (by omega), ← pow_add]
    have hq : 2 ^ 23 * sh + n < infBits := by
      have hlow := magUnits_significand_mul den hn.le hs
      have hlt : magUnits (2 ^ 23 * sh + n) * den < magUnits infBits * den := by
        rw [htop]
        omega
      exact magUnits_lt_iff.mp (Nat.lt_of_mul_lt_mul_right hlt)
    by_contra hge
    rcases roundHalfEven_cases n r (den * 2 ^ sh) with ⟨hdown, -⟩ | ⟨hup, hhalf, -⟩
    · omega
    · obtain ⟨rfl, rfl⟩ : sh = 253 ∧ n = 2 ^ 24 - 1 := by omega
      omega

end

/-! ### The nearest word -/

theorem getLsbD_zero_iff (w : Word) : w.getLsbD 0 = false ↔ magBits w % 2 = 0 := by
  rw [magBits_eq, BitVec.getLsbD, Nat.testBit_zero, decide_eq_false_iff_not]
  omega

/-- The distance of a word's value from `x = X / den` units. -/
theorem value_sub_eq {den : Nat} (hd : 0 < den) (w : Word) (X : Int) :
    value w - (X : ℚ) / (den * 2 ^ 149) = ((units w * den - X : Int) : ℚ) / (den * 2 ^ 149) := by
  have hd' : (den : ℚ) ≠ 0 := by positivity
  rw [value]
  push_cast
  field_simp

/-- The rounding of `X / den` units in the word with the sign of `X`. -/
theorem roundWord_nearest {neg : Bool} {num den : Nat} (hd : 0 < den) (hinf : roundMag num den < infBits) (y : Word) :
    (units (roundWord neg num den) * den - signedNum neg num).natAbs ≤ (units y * den - signedNum neg num).natAbs ∧
      ((units (roundWord neg num den) * den - signedNum neg num).natAbs = (units y * den - signedNum neg num).natAbs →
        units y ≠ units (roundWord neg num den) → (roundWord neg num den).getLsbD 0 = false) := by
  rw [getLsbD_zero_iff, magBits_roundWord, units_roundWord]
  cases neg with
  | false => simpa [signedNum] using roundMag_nearest_signed hd hinf (natAbs_units y)
  | true =>
    have hflip : ∀ v : Int, (v * den - -(num : Int)).natAbs = (-v * den - num : Int).natAbs := fun v => by
      rw [Int.neg_mul, ← Int.natAbs_neg]
      congr 1
      ring
    obtain ⟨hle, htie⟩ := roundMag_nearest_signed hd hinf (v := -units y) (by rw [Int.natAbs_neg, natAbs_units])
    rw [Nat.cast_mul] at hle htie
    simp only [signedNum, if_true, hflip, neg_neg]
    exact ⟨hle, fun h hne => htie h (fun hv => hne (by omega))⟩

section

variable {neg : Bool} {num den : Nat} {x : ℚ} (hd : 0 < den) (hx : x = (signedNum neg num : ℚ) / (den * 2 ^ 149))

include hd hx

theorem abs_value_sub_eq (w : Word) :
    |value w - x| = ((units w * den - signedNum neg num).natAbs : ℚ) / (den * 2 ^ 149) := by
  rw [hx, value_sub_eq hd, abs_div, abs_of_pos (show (0 : ℚ) < den * 2 ^ 149 by positivity), Nat.cast_natAbs, Int.cast_abs]

theorem abs_lt_threshold_iff : |x| < 2 ^ 128 - 2 ^ 103 ↔ num < 33554431 * 2 ^ 252 * den := by
  have hpos : (0 : ℚ) < den * 2 ^ 149 := by positivity
  have hnum : |(signedNum neg num : ℚ)| = num := by cases neg <;> simp [signedNum]
  have hscale : ((2 : ℚ) ^ 128 - 2 ^ 103) * (den * 2 ^ 149) = (33554431 * 2 ^ 252 * den : Nat) := by
    push_cast
    ring
  rw [hx, abs_div, hnum, abs_of_pos hpos, div_lt_iff₀ hpos, hscale, Nat.cast_lt]

/-- The sign of an exact value that is not zero. -/
theorem decide_neg_eq_of_pos (hnum : 0 < num) : decide (x < 0) = neg := by
  have hpos : (0 : ℚ) < num / (den * 2 ^ 149) := by positivity
  cases neg with
  | false => rw [hx]; simpa [signedNum] using hpos.le
  | true => rw [hx]; simpa [signedNum, neg_div] using hpos

/-- Rounding answers the nearest word, or an infinity past the threshold (R10). -/
theorem roundsTo_roundWord : RoundsTo x (roundWord neg num den) := by
  have hpos : (0 : ℚ) < den * 2 ^ 149 := by positivity
  have hiff := roundMag_lt_infBits_iff (num := num) hd
  unfold RoundsTo
  split
  next hlt =>
    have hinf := hiff.mpr ((abs_lt_threshold_iff hd hx).mp hlt)
    refine ⟨by rwa [isFinite_iff, magBits_roundWord], fun y _ => ?_⟩
    obtain ⟨hle, htie⟩ := roundWord_nearest (neg := neg) hd hinf y
    rw [abs_value_sub_eq hd hx, abs_value_sub_eq hd hx, div_le_div_iff_of_pos_right hpos, Nat.cast_le, div_left_inj' hpos.ne',
      Nat.cast_inj]
    exact ⟨hle, fun h hne => htie h (fun hu => hne (by rw [value, value, hu]))⟩
  next hge =>
    have hnum : 33554431 * 2 ^ 252 * den ≤ num := not_lt.mp (mt (abs_lt_threshold_iff hd hx).mpr hge)
    have hinf : roundMag num den = infBits :=
      le_antisymm (roundMag_le_infBits num den) (not_lt.mp (mt hiff.mp (not_lt.mpr hnum)))
    rw [decide_neg_eq_of_pos hd hx (by omega), roundWord, hinf, infinity]

end

/-- A zero is the rounding of 0. -/
theorem roundsTo_zero {w : Word} (h : isZero w = true) : RoundsTo 0 w := by
  have hv : value w = 0 := by rw [value, units_eq_zero_iff.mpr h, Int.cast_zero, zero_div]
  rw [RoundsTo, if_pos (by norm_num)]
  refine ⟨finite_of_isZero h, fun y _ => ⟨by simp [hv], fun htie hne => absurd ?_ hne⟩⟩
  rw [hv, sub_zero, abs_zero, sub_zero] at htie
  rw [hv, abs_eq_zero.mp htie.symm]

/-! ### The four operations -/

/-- The dividend of a quotient has the sign of both operands. -/
theorem signedNum_quotient (a b : Word) :
    signedNum (signBit a != signBit b) (2 ^ 149 * (units a).natAbs) * units b = 2 ^ 149 * units a * (units b).natAbs := by
  rw [natAbs_units, natAbs_units]
  unfold units
  cases signBit a <;> cases signBit b <;> simp [signedNum]

section

variable {a b : Word} (ha : isFinite a = true) (hb : isFinite b = true)

include ha hb

theorem roundsTo_fAdd : RoundsTo (value a + value b) (fAdd a b) := by
  have hsum : value a + value b = ((units a + units b : Int) : ℚ) / ((1 : Nat) * 2 ^ 149) := by
    rw [value, value]
    push_cast
    ring
  rw [fAdd_finite ha hb]
  split
  next h =>
    rw [hsum, h, Int.cast_zero, zero_div]
    exact roundsTo_zero (by cases signBit a && signBit b <;> decide)
  next => exact roundsTo_roundWord Nat.one_pos (by rw [signedNum_natAbs, hsum])

theorem roundsTo_fSub : RoundsTo (value a - value b) (fSub a b) := by
  rw [sub_eq_add_neg, ← value_fNeg]
  exact roundsTo_fAdd ha (by rwa [isFinite_fNeg])

theorem roundsTo_fMul : RoundsTo (value a * value b) (fMul a b) := by
  rw [fMul_finite ha hb]
  refine roundsTo_roundWord (by positivity) ?_
  rw [signedNum_product, value, value]
  push_cast
  ring

theorem roundsTo_fDiv (h0 : value b ≠ 0) : RoundsTo (value a / value b) (fDiv a b) := by
  have hb0 : units b ≠ 0 := fun h => h0 (by rw [value, h, Int.cast_zero, zero_div])
  have hzb : isZero b = false := by rwa [← Bool.not_eq_true, ← units_eq_zero_iff]
  have hpos : 0 < (units b).natAbs := Int.natAbs_pos.mpr hb0
  have hq : (units b : ℚ) ≠ 0 := Int.cast_ne_zero.mpr hb0
  have hq' : ((units b).natAbs : ℚ) ≠ 0 := Nat.cast_ne_zero.mpr hpos.ne'
  have hsigned := congrArg (Int.cast : Int → ℚ) (signedNum_quotient a b)
  simp only [Int.cast_mul, Int.cast_pow, Int.cast_ofNat, Int.cast_natCast] at hsigned
  rw [fDiv_finite ha hb hzb]
  refine roundsTo_roundWord hpos ?_
  rw [value, value, div_div_div_cancel_right₀ (by positivity), div_eq_div_iff hq (by positivity)]
  linear_combination -hsigned

end

/-! ### The obligation -/

/-- Settles O31: each operation rounds its exact result once, and a zero result is exact. -/
theorem arithmeticIsCorrectlyRounded : Obligations.ArithmeticIsCorrectlyRounded :=
  fun _ _ ha hb => ⟨roundsTo_fAdd ha hb, roundsTo_fSub ha hb, roundsTo_fMul ha hb, roundsTo_fDiv ha hb⟩

end Sys2Proof.Machine
